-- ==== Sys2Proof/Word.lean ====
section
/-! DEFINITION. The word types of the codec bank and the plain integer helpers of 00_scope.md R8 to R11. -/

namespace Sys2Proof

/-- One byte of a buffer or of an 8-bit register (R8). -/
abbrev Byte := BitVec 8

/-- A reading value register: 64 bits, read as two's complement (R42). -/
abbrev Value := BitVec 64

/-- `trunc(q)` of R10: the integer nearest `q` in the direction of zero. -/
def trunc (q : ℚ) : ℤ := if 0 ≤ q then ⌊q⌋ else ⌈q⌉

/-- `rhaz(q)` of R10: the nearest integer, halves away from zero. -/
def rhaz (q : ℚ) : ℤ := if 0 ≤ q then ⌊q + 1 / 2⌋ else ⌈q - 1 / 2⌉

/-- `tdiv(a, b)` of R10: integer division rounded toward zero. -/
abbrev tdiv (a b : ℤ) : ℤ := Int.tdiv a b

end Sys2Proof
end

