-- ==== Sys2Proof/Syntax.lean ====
section
/-! DEFINITION. The commands of the block: one constructor for each row of spec/opcode_table.json (30_encoding.md R101). -/

namespace Sys2Proof

/-- A command. No command has an explicit operand: the format tag of classes 2 and 3 is part of the code (R102), and
every other operand is an implicit register (R104). -/
inductive Instr where
  /-- DETECT, code 0x10 (R180). -/
  | detect
  /-- DECODE.ANY, code 0x11 (R290). -/
  | decodeAny
  /-- DECODE.F2, code 0x22 (R260). -/
  | decodeF2
  /-- DECODE.F3, code 0x23 (R230). -/
  | decodeF3
  /-- DECODE.F4, code 0x24 (R261). -/
  | decodeF4
  /-- DECODE.F5, code 0x25 (R190). -/
  | decodeF5
  /-- ENCODE.F2, code 0x32 (R270). -/
  | encodeF2
  /-- ENCODE.F3, code 0x33 (R240). -/
  | encodeF3
  /-- ENCODE.F4, code 0x34 (R271). -/
  | encodeF4
  /-- ENCODE.F5, code 0x35 (R200). -/
  | encodeF5
  /-- ENV.WRAP, code 0x40 (R210). -/
  | envWrap
  /-- ENV.STRIP, code 0x41 (R213). -/
  | envStrip
  deriving DecidableEq, Repr

end Sys2Proof
end

