-- ==== Sys2Proof/Decode.lean ====
section
/-! DEFINITION. Decoding of the 8-bit command word, total on any byte and rejecting by name (30_encoding.md R100 to
R103), and the encoder. -/

namespace Sys2Proof

/-- Why a command word names no command (R103). -/
inductive DecodeReject where
  /-- CLASS is none of 1, 2, 3 and 4. -/
  | reservedClass (cls : Nat)
  /-- CLASS is one of 1 to 4 and has no sub-operation SEL. -/
  | reservedSel (cls sel : Nat)
  deriving DecidableEq, Repr

/-- CLASS, bits [7:4] of the command word (R100). -/
def classOf (b : Byte) : Nat := (b.extractLsb' 4 4).toNat

/-- SEL, bits [3:0] of the command word (R100). -/
def selOf (b : Byte) : Nat := (b.extractLsb' 0 4).toNat

/-- Class 1: the detector and the dispatcher (R101). -/
def decodeClass1 : Nat → Except DecodeReject Instr
  | 0 => .ok .detect
  | 1 => .ok .decodeAny
  | n => .error (.reservedSel 1 n)

/-- Class 2: decode, with the format tag in SEL (R101, R102). -/
def decodeClass2 : Nat → Except DecodeReject Instr
  | 2 => .ok .decodeF2
  | 3 => .ok .decodeF3
  | 4 => .ok .decodeF4
  | 5 => .ok .decodeF5
  | n => .error (.reservedSel 2 n)

/-- Class 3: encode, with the format tag in SEL (R101, R102). -/
def decodeClass3 : Nat → Except DecodeReject Instr
  | 2 => .ok .encodeF2
  | 3 => .ok .encodeF3
  | 4 => .ok .encodeF4
  | 5 => .ok .encodeF5
  | n => .error (.reservedSel 3 n)

/-- Class 4: the envelope helper (R101). -/
def decodeClass4 : Nat → Except DecodeReject Instr
  | 0 => .ok .envWrap
  | 1 => .ok .envStrip
  | n => .error (.reservedSel 4 n)

/-- The command a byte names, or why it names none (R101, R103). -/
def decode (b : Byte) : Except DecodeReject Instr :=
  match classOf b with
  | 1 => decodeClass1 (selOf b)
  | 2 => decodeClass2 (selOf b)
  | 3 => decodeClass3 (selOf b)
  | 4 => decodeClass4 (selOf b)
  | c => .error (.reservedClass c)

/-- `decodeCmd : UInt8 -> Option Command` of R103. -/
def decodeCmd (b : Byte) : Option Instr :=
  match decode b with
  | .ok i => some i
  | .error _ => none

/-- The command byte of a table word: a command is one byte, so bits above it belong to no command. -/
def decodeTableWord (nbits w : Nat) : Option Instr :=
  if nbits ≤ 8 ∧ w < 2 ^ 8 then decodeCmd (BitVec.ofNat 8 w) else none

/-- The operation class of a command (R101). -/
def Instr.cls : Instr → BitVec 4
  | .detect => 1
  | .decodeAny => 1
  | .decodeF2 => 2
  | .decodeF3 => 2
  | .decodeF4 => 2
  | .decodeF5 => 2
  | .encodeF2 => 3
  | .encodeF3 => 3
  | .encodeF4 => 3
  | .encodeF5 => 3
  | .envWrap => 4
  | .envStrip => 4

/-- The SEL field of a command: the format tag in classes 2 and 3, the sub-operation in classes 1 and 4 (R101). -/
def Instr.sel : Instr → BitVec 4
  | .detect => 0
  | .decodeAny => 1
  | .decodeF2 => 2
  | .decodeF3 => 3
  | .decodeF4 => 4
  | .decodeF5 => 5
  | .encodeF2 => 2
  | .encodeF3 => 3
  | .encodeF4 => 4
  | .encodeF5 => 5
  | .envWrap => 0
  | .envStrip => 1

/-- The command word: CLASS in [7:4], SEL in [3:0] (R100). -/
def encode (i : Instr) : Byte := i.cls ++ i.sel

end Sys2Proof
end

