-- ==== Sys2Proof/Config.lean ====
section
/-! DEFINITION. The implementation parameters of 00_scope.md R7: the fixed ones as constants, the open ones as the
fields of Config. A machine holds one Config, and no step changes it. -/

namespace Sys2Proof

/-- OUT_CAP, fixed at 26 (R7, D20). -/
def outCap : Nat := 26

/-- MICRO, fixed at 10^6 register units per physical unit (R7, D4). -/
def micro : Int := 1000000

/-- SIGN_SOURCE (R147, D12): what sets the sign bit of an encoded sign-magnitude temperature. -/
inductive SignSource where
  /-- The sign bit is set when the value is negative. -/
  | value
  /-- The sign bit is set when the truncated whole part is negative. -/
  | whole
  deriving DecidableEq, Repr

/-- F4_ID_FORM (R262, D16): how the Format-4 identifier is reported. -/
inductive F4IdForm where
  /-- The slot holds `b >> 2`. -/
  | shifted
  /-- The slot holds the six upper bits where they stand. -/
  | inPlace
  deriving DecidableEq, Repr

/-- The open parameters of R7. -/
structure Config where
  /-- IN_CAP: capacity of IN_BUF in bytes (D28). -/
  inCap : Nat
  /-- F24_DECODE_FRACTION: whether a Format-2/4 decode adds byte 3 (D13). -/
  f24DecodeFraction : Bool
  /-- F4_ID_FORM (D16). -/
  f4IdForm : F4IdForm
  /-- SIGN_SOURCE (D12). -/
  signSource : SignSource
  /-- ENV_PREFIX_BYTES[0] (D21). -/
  envPrefix0 : Byte
  /-- ENV_PREFIX_BYTES[1] (D21). -/
  envPrefix1 : Byte
  /-- WINDOW_BASE: host address of the register window (D3). -/
  windowBase : Nat
  deriving DecidableEq, Repr

/-- The default values R7 gives.
DESIGN CHOICE: R7 gives WINDOW_BASE no default, and 0 stands here (log 3). -/
def Config.defaults : Config :=
  { inCap := 32
    f24DecodeFraction := true
    f4IdForm := .shifted
    signSource := .value
    envPrefix0 := 0x04#8
    envPrefix1 := 0x99#8
    windowBase := 0 }

end Sys2Proof
end

