-- ==== Sys2Proof/Machine/State.lean ====
section
/-! DEFINITION. The state of one codec-bank instance, as 10_state.md R53 lists it, with the host's pending accesses
beside it; the reasons a step can stop; and the state after reset. -/

namespace Sys2Proof.Machine

/-- The twelve reading slots, numbered 0 to 11 in this order (R40). -/
inductive Slot where
  | temperature
  | humidity
  | pressure
  | accelX
  | accelY
  | accelZ
  | batteryVoltage
  | txPower
  | movementCounter
  | measurementSequence
  | deviceId
  | coarseId
  deriving DecidableEq, Repr

/-- A bank of twelve value registers, one for each slot (R33, rows 0x10 + s and 0x20 + s). -/
structure SlotRegs where
  temperature : Value
  humidity : Value
  pressure : Value
  accelX : Value
  accelY : Value
  accelZ : Value
  batteryVoltage : Value
  txPower : Value
  movementCounter : Value
  measurementSequence : Value
  deviceId : Value
  coarseId : Value
  deriving DecidableEq, Repr

/-- Every value register at 0 (R52). -/
def SlotRegs.zero : SlotRegs :=
  { temperature := 0, humidity := 0, pressure := 0, accelX := 0, accelY := 0, accelZ := 0, batteryVoltage := 0,
    txPower := 0, movementCounter := 0, measurementSequence := 0, deviceId := 0, coarseId := 0 }

/-- The contents of a byte buffer: pairs of byte index and byte, indexes strictly rising, no byte listed that equals
what an unlisted index reads as (Memory.unlisted, Machine/Ops.lean). -/
abbrev Memory := List Host.Cell

/-- The request registers and IN_BUF (R33, R53, R71). -/
structure Request where
  /-- CMD (R34). -/
  cmd : Byte
  /-- IN_LEN (R37). -/
  inLen : Byte
  /-- IN_BUF (R71), byte i at index i. -/
  inBuf : Memory
  /-- RD_IN_CTRL.VALID (R38). -/
  rdValid : Bool
  /-- RD_IN_PRESENT[11:0] (R39). -/
  rdPresent : BitVec 12
  /-- RD_IN_VALUE[0..11] (R42). -/
  rdValue : SlotRegs
  deriving DecidableEq, Repr

/-- The response registers, STATUS.CODE and OUT_BUF (R33, R43, R53, R73). -/
structure Response where
  /-- STATUS.CODE (R36, R301). -/
  code : BitVec 4
  /-- FMT_OUT. -/
  fmt : Byte
  /-- RD_OUT_CTRL.VALID (R43). -/
  rdValid : Bool
  /-- RD_OUT_PRESENT[11:0]. -/
  rdPresent : BitVec 12
  /-- RD_OUT_VALUE[0..11]. -/
  rdValue : SlotRegs
  /-- OUT_LEN. -/
  outLen : Byte
  /-- OUT_BUF (R73), byte i at index i. -/
  outBuf : Memory
  deriving DecidableEq, Repr

/-- One act of the outside world (R30, R340) or the host's leave for the codec unit to move. Host addresses are absolute;
the window stands at Config.windowBase. -/
inductive BusAct where
  /-- The host writes `data` to the window entry at `addr`, which takes its own width of it (log 8). -/
  | write (addr : Nat) (data : Value)
  /-- The host reads the entry at `addr`. -/
  | read (addr : Nat)
  /-- The host writes the value it last read to `addr`: the second half of each copy of MOVE (R105). -/
  | writeBack (addr : Nat)
  /-- The codec unit moves before the host's next access: the finite delay of R360 ends here. -/
  | codec
  /-- The host polls STATUS until DONE = 1 (R105, R350). -/
  | waitDone
  /-- MOVE (R105): the host reads OUT_LEN and then copies that many bytes. -/
  | move
  /-- A pseudo-instruction's check (R106): the host reads STATUS and drops the next `count` acts unless CODE = OK. -/
  | stopUnlessOk (count : Nat)
  /-- The platform's reset input (R340). -/
  | reset
  deriving DecidableEq, Repr

/-- The state of one instance: R53's record, the instance's parameters, and the host's side of the window. -/
structure State where
  /-- The parameters of R7: constant, changed by no step. -/
  cfg : Config
  /-- The request registers and IN_BUF. -/
  req : Request
  /-- The response registers and OUT_BUF. -/
  resp : Response
  /-- STATUS.BUSY (R36). -/
  busy : Bool
  /-- STATUS.DONE (R36). -/
  done : Bool
  /-- The snapshot Q of the pending transaction (R48, R50). -/
  snapshot : Option Request
  /-- The model's own: the acts of the outside world still to come, in the host's program order (R85, log 4). -/
  agenda : List BusAct
  /-- The model's own: the value the host last read (log 4). -/
  hostData : Value
  deriving DecidableEq, Repr

/-- Why the machine stops with a fault. -/
inductive Fault where
  /-- Raised by a command's meaning when no transaction is pending: R48 gives a completion to a pending transaction only.
  Safe: no step from any state calls a meaning so. -/
  | noPendingTransaction
  /-- Raised by a step that finds STATUS.CODE in 8..15, which R301 says is never produced (93 I10: a fault state).
  Safe: no run from reset reaches such a state. -/
  | reservedStatusCode
  deriving DecidableEq, Repr

/-- Why a step has no meaning. -/
inductive Refusal where
  /-- Raised by exec for a command that has no meaning yet; no arm does so. Safe. -/
  | notModelled (mnemonic : String)
  /-- Raised by a host write of IN_LEN greater than IN_CAP, which R352 says a model refuses. Safe. -/
  | inLenBeyondCapacity
  /-- Raised by a host access below WINDOW_BASE: it addresses another part of the platform, of which the spec says
  nothing (D3). Safe. -/
  | accessOutsideWindow
  deriving DecidableEq, Repr

/-- The request registers after reset (R52, R340). -/
def Request.zero : Request :=
  { cmd := 0, inLen := 0, inBuf := [], rdValid := false, rdPresent := 0, rdValue := SlotRegs.zero }

/-- The response registers after reset (R52, R340); with CODE set, also the error response (R306). -/
def Response.zero : Response :=
  { code := 0, fmt := 0, rdValid := false, rdPresent := 0, rdValue := SlotRegs.zero, outLen := 0, outBuf := [] }

/-- The machine right after reset (R52, R340, R341): every register and buffer byte 0, no transaction pending.
DESIGN CHOICE: the parameters hold R7's defaults, and the host has no act pending (log 1, log 4). -/
def State.reset : State :=
  { cfg := Config.defaults
    req := Request.zero
    resp := Response.zero
    busy := false
    done := false
    snapshot := none
    agenda := []
    hostData := 0 }

end Sys2Proof.Machine
end

