-- ==== Sys2Proof/Machine/Flags.lean ====
section
/-! DEFINITION. The status codes and the STATUS register (10_state.md R36, 60_exceptions.md R301). -/

namespace Sys2Proof.Machine

/-- The status codes a completion can write (R301). -/
inductive StatusCode where
  | ok
  | emptyInput
  | unknownFormat
  | wrongFormatTag
  | invalidLength
  | nilInput
  | encodeDomain
  | illegalCommand
  deriving DecidableEq, Repr

/-- The number of a status code in STATUS.CODE (R301). -/
def StatusCode.bits : StatusCode → BitVec 4
  | .ok => 0
  | .emptyInput => 1
  | .unknownFormat => 2
  | .wrongFormatTag => 3
  | .invalidLength => 4
  | .nilInput => 5
  | .encodeDomain => 6
  | .illegalCommand => 7

/-- Codes 8..15 are reserved (R301). -/
def codeReserved (c : BitVec 4) : Bool := decide (8 ≤ c.toNat)

/-- The STATUS register as the host reads it: DONE in bit 7, BUSY in bit 6, 0 in bits [5:4], CODE in [3:0] (R36). -/
def statusByte (s : State) : Byte :=
  BitVec.ofBool s.done ++ BitVec.ofBool s.busy ++ 0#2 ++ s.resp.code

end Sys2Proof.Machine
end

