-- ==== Sys2Proof/Machine/Ops.lean ====
section
/-! DEFINITION. The named operations over the byte buffers, the value registers, the register window and the handshake:
20_memory.md, 10_state.md R33 to R52, 60_exceptions.md R306 and R307, 70_reset_and_hazards.md R340. -/

namespace Sys2Proof.Machine

/-! ### Byte buffers -/

/-- What an unlisted byte reads as: the reset contents of IN_BUF and OUT_BUF (R52). -/
def Memory.unlisted : Byte := 0#8

/-- The byte at index `k`. -/
def Memory.read : Memory → Nat → Byte
  | [], _ => Memory.unlisted
  | (a, b) :: m, k => if a = k then b else Memory.read m k

/-- Byte `k` becomes `v`; the canonical form is kept. -/
def Memory.write : Memory → Nat → Byte → Memory
  | [], k, v => if v = Memory.unlisted then [] else [(k, v)]
  | (a, b) :: m, k, v =>
    if k < a then (if v = Memory.unlisted then (a, b) :: m else (k, v) :: (a, b) :: m)
    else if k = a then (if v = Memory.unlisted then m else (k, v) :: m)
    else (a, b) :: Memory.write m k v

/-- The bytes `bs` at indexes `k`, `k + 1`, … and nothing else. -/
def Memory.ofBytesFrom (k : Nat) : List Byte → Memory
  | [] => []
  | b :: bs =>
    if b = Memory.unlisted then Memory.ofBytesFrom (k + 1) bs else (k, b) :: Memory.ofBytesFrom (k + 1) bs

/-- The bytes `bs` from index 0 on, every later byte 0: how a completion writes OUT_BUF (R73). -/
def Memory.ofBytes (bs : List Byte) : Memory := Memory.ofBytesFrom 0 bs

/-- Canonical form with every index at least `lo`. -/
def Memory.wfFrom (lo : Nat) : Memory → Bool
  | [] => true
  | (a, b) :: m => decide (lo ≤ a) && decide (b ≠ Memory.unlisted) && Memory.wfFrom (a + 1) m

/-- The canonical form: indexes strictly rising, no entry that equals what an unlisted byte reads as. -/
def Memory.wf (m : Memory) : Bool := Memory.wfFrom 0 m

/-- Every listed index is below `n`. -/
def Memory.below (m : Memory) (n : Nat) : Bool := m.all fun c => decide (c.1 < n)

/-! ### Slots and value registers -/

/-- The slots in the order of their numbers (R40). -/
def Slot.all : List Slot :=
  [.temperature, .humidity, .pressure, .accelX, .accelY, .accelZ, .batteryVoltage, .txPower, .movementCounter,
    .measurementSequence, .deviceId, .coarseId]

/-- The slot's number (R40). -/
def Slot.num : Slot → Nat
  | .temperature => 0
  | .humidity => 1
  | .pressure => 2
  | .accelX => 3
  | .accelY => 4
  | .accelZ => 5
  | .batteryVoltage => 6
  | .txPower => 7
  | .movementCounter => 8
  | .measurementSequence => 9
  | .deviceId => 10
  | .coarseId => 11

/-- The slot of a number (R40). -/
def Slot.ofNum : Nat → Option Slot
  | 0 => some .temperature
  | 1 => some .humidity
  | 2 => some .pressure
  | 3 => some .accelX
  | 4 => some .accelY
  | 5 => some .accelZ
  | 6 => some .batteryVoltage
  | 7 => some .txPower
  | 8 => some .movementCounter
  | 9 => some .measurementSequence
  | 10 => some .deviceId
  | 11 => some .coarseId
  | _ => none

/-- Register units in one physical unit of the slot: 10^6 for slots 0 to 7, 1 for slots 8 to 11 (R40, R44). -/
def Slot.unit (s : Slot) : Int := if s.num < 8 then micro else 1

/-- The value register of a slot. -/
def SlotRegs.get (r : SlotRegs) : Slot → Value
  | .temperature => r.temperature
  | .humidity => r.humidity
  | .pressure => r.pressure
  | .accelX => r.accelX
  | .accelY => r.accelY
  | .accelZ => r.accelZ
  | .batteryVoltage => r.batteryVoltage
  | .txPower => r.txPower
  | .movementCounter => r.movementCounter
  | .measurementSequence => r.measurementSequence
  | .deviceId => r.deviceId
  | .coarseId => r.coarseId

/-- The value register of a slot becomes `v`. -/
def SlotRegs.set (r : SlotRegs) (s : Slot) (v : Value) : SlotRegs :=
  match s with
  | .temperature => { r with temperature := v }
  | .humidity => { r with humidity := v }
  | .pressure => { r with pressure := v }
  | .accelX => { r with accelX := v }
  | .accelY => { r with accelY := v }
  | .accelZ => { r with accelZ := v }
  | .batteryVoltage => { r with batteryVoltage := v }
  | .txPower => { r with txPower := v }
  | .movementCounter => { r with movementCounter := v }
  | .measurementSequence => { r with measurementSequence := v }
  | .deviceId => { r with deviceId := v }
  | .coarseId => { r with coarseId := v }

/-- The bank that holds `g s` for each slot `s`. -/
def SlotRegs.ofFn (g : Slot → Value) : SlotRegs :=
  { temperature := g .temperature, humidity := g .humidity, pressure := g .pressure, accelX := g .accelX,
    accelY := g .accelY, accelZ := g .accelZ, batteryVoltage := g .batteryVoltage, txPower := g .txPower,
    movementCounter := g .movementCounter, measurementSequence := g .measurementSequence,
    deviceId := g .deviceId, coarseId := g .coarseId }

/-- The presence register whose bit `s.num` is `p s` (R39, R45). -/
def presentMask (p : Slot → Bool) : BitVec 12 :=
  Slot.all.foldl (fun m s => if p s then m ||| BitVec.twoPow 12 s.num else m) 0

/-! ### Responses -/

/-- The error response (R306): every response register 0 but CODE. -/
def errorResponse (c : StatusCode) : Response := { Response.zero with code := c.bits }

/-- A successful response that carries a format tag only (R180, R307). -/
def tagResponse (tag : Byte) : Response := { Response.zero with fmt := tag }

/-- A successful decode (R43, R45): the reading `slots` in register units, an absent slot with present bit and value 0. -/
def readingResponse (tag : Byte) (slots : Slot → Option Int) : Response :=
  { Response.zero with
    fmt := tag
    rdValid := true
    rdPresent := presentMask fun s => (slots s).isSome
    rdValue := SlotRegs.ofFn fun s => BitVec.ofInt 64 ((slots s).getD 0) }

/-- A successful encode, wrap or strip (R73, R307): `bs` in OUT_BUF, zeros after it. -/
def bytesResponse (tag : Byte) (bs : List Byte) : Response :=
  { Response.zero with fmt := tag, outLen := BitVec.ofNat 8 bs.length, outBuf := Memory.ofBytes bs }

/-! ### The handshake -/

/-- The completion's update (R48): every response register at once, BUSY <- 0, DONE <- 1, the snapshot gone. -/
def State.complete (r : Response) (s : State) : State :=
  { s with resp := r, busy := false, done := true, snapshot := none }

/-- Ending a transaction with an error (R12 `raise`, R300, R306, R313): the block's only form of exception entry. It saves
nothing and transfers no control, and there is no return from it (R314). -/
def State.raise (c : StatusCode) (s : State) : State := s.complete (errorResponse c)

/-- The completion of the pending transaction with the response `k` computes from its snapshot (R48). -/
def transact (k : Request → Response) (s : State) : Host.Outcome State Fault Refusal :=
  match s.snapshot with
  | none => .fault .noPendingTransaction
  | some q => .next (s.complete (k q))

/-- A GO (R35, R48, R49): accepted while BUSY = 0, ignored while BUSY = 1. -/
def State.go (s : State) : State :=
  if s.busy then s else { s with snapshot := some s.req, busy := true, done := false }

/-- A reset of the block (R340). The parameters are no registers, and the host is not reset (log 4). -/
def State.resetBlock (s : State) : State :=
  { s with req := Request.zero, resp := Response.zero, busy := false, done := false, snapshot := none }

/-! ### The register window -/

/-- An entry of the register window (R33, R72). -/
inductive Entry where
  | cmd
  | ctrl
  | status
  | inLen
  | rdInCtrl
  | rdInPresent
  | fmtOut
  | rdOutCtrl
  | rdOutPresent
  | outLen
  | rdInValue (s : Slot)
  | rdOutValue (s : Slot)
  | inBuf (i : Nat)
  | outBuf (i : Nat)
  | reserved
  deriving DecidableEq, Repr

/-- The entry of register number 0x00..0x09 (R33). -/
def lowEntry : Nat → Entry
  | 0 => .cmd
  | 1 => .ctrl
  | 2 => .status
  | 3 => .inLen
  | 4 => .rdInCtrl
  | 5 => .rdInPresent
  | 6 => .fmtOut
  | 7 => .rdOutCtrl
  | 8 => .rdOutPresent
  | 9 => .outLen
  | _ => .reserved

/-- The entry at a window offset (R33, R72, R84): everything the map does not name is reserved. -/
def entryAt (cfg : Config) (off : Nat) : Entry :=
  if off < 0x10 then lowEntry off
  else if off < 0x20 then
    match Slot.ofNum (off - 0x10) with
    | some s => .rdInValue s
    | none => .reserved
  else if off < 0x30 then
    match Slot.ofNum (off - 0x20) with
    | some s => .rdOutValue s
    | none => .reserved
  else if 0x100 ≤ off ∧ off < 0x100 + cfg.inCap then .inBuf (off - 0x100)
  else if 0x200 ≤ off ∧ off < 0x200 + outCap then .outBuf (off - 0x200)
  else .reserved

/-- The width of an entry in bits (R33, R72); a reserved entry has none. -/
def Entry.width : Entry → Nat
  | .rdInPresent => 16
  | .rdOutPresent => 16
  | .rdInValue _ => 64
  | .rdOutValue _ => 64
  | .reserved => 0
  | _ => 8

/-- What a host read of an entry returns, zero-extended (R33, R35, R36, R47). -/
def readEntry (e : Entry) (s : State) : Value :=
  match e with
  | .cmd => s.req.cmd.setWidth 64
  | .ctrl => 0
  | .status => (statusByte s).setWidth 64
  | .inLen => s.req.inLen.setWidth 64
  | .rdInCtrl => (BitVec.ofBool s.req.rdValid).setWidth 64
  | .rdInPresent => s.req.rdPresent.setWidth 64
  | .fmtOut => s.resp.fmt.setWidth 64
  | .rdOutCtrl => (BitVec.ofBool s.resp.rdValid).setWidth 64
  | .rdOutPresent => s.resp.rdPresent.setWidth 64
  | .outLen => s.resp.outLen.setWidth 64
  | .rdInValue k => s.req.rdValue.get k
  | .rdOutValue k => s.resp.rdValue.get k
  | .inBuf i => (s.req.inBuf.read i).setWidth 64
  | .outBuf i => (s.resp.outBuf.read i).setWidth 64
  | .reserved => 0

/-- The state with other request registers. -/
def State.withReq (s : State) (q : Request) : State := { s with req := q }

/-- A host write of an entry (R33 to R42, R47): a read-only or reserved entry ignores it, and IN_LEN > IN_CAP is refused
(R352). -/
def writeEntry (e : Entry) (v : Value) (s : State) : Host.Outcome State Fault Refusal :=
  match e with
  | .cmd => .next (s.withReq { s.req with cmd := v.setWidth 8 })
  | .ctrl => .next (if v.getLsbD 0 then s.go else s)
  | .inLen =>
    if s.cfg.inCap < (v.setWidth 8).toNat then .refused .inLenBeyondCapacity
    else .next (s.withReq { s.req with inLen := v.setWidth 8 })
  | .rdInCtrl => .next (s.withReq { s.req with rdValid := v.getLsbD 0 })
  | .rdInPresent => .next (s.withReq { s.req with rdPresent := v.setWidth 12 })
  | .rdInValue k => .next (s.withReq { s.req with rdValue := s.req.rdValue.set k v })
  | .inBuf i => .next (s.withReq { s.req with inBuf := s.req.inBuf.write i (v.setWidth 8) })
  | .status => .next s
  | .fmtOut => .next s
  | .rdOutCtrl => .next s
  | .rdOutPresent => .next s
  | .outLen => .next s
  | .rdOutValue _ => .next s
  | .outBuf _ => .next s
  | .reserved => .next s

/-- A host read at a window offset; it has no side effect (R83). -/
def windowRead (off : Nat) (s : State) : Value := readEntry (entryAt s.cfg off) s

/-- A host write at a window offset. -/
def windowWrite (off : Nat) (v : Value) (s : State) : Host.Outcome State Fault Refusal :=
  writeEntry (entryAt s.cfg off) v s

/-- A host write at a host address: the window stands at WINDOW_BASE (R7, D3). -/
def busWrite (addr : Nat) (v : Value) (s : State) : Host.Outcome State Fault Refusal :=
  if addr < s.cfg.windowBase then .refused .accessOutsideWindow
  else windowWrite (addr - s.cfg.windowBase) v s

/-- A host read at a host address; the host keeps the value. -/
def busRead (addr : Nat) (s : State) : Host.Outcome State Fault Refusal :=
  if addr < s.cfg.windowBase then .refused .accessOutsideWindow
  else .next { s with hostData := windowRead (addr - s.cfg.windowBase) s }

end Sys2Proof.Machine
end

