-- ==== Sys2Proof/Machine/Operands.lean ====
section
/-! DEFINITION. How a command reads its implicit operands from the snapshot and turns raw values into bytes:
00_scope.md R8 to R12, 10_state.md R44, 20_memory.md R74 to R79, 40_primitives.md R132 and R133. -/

namespace Sys2Proof.Machine

/-- `MemRead(IN, a, n)` of R12: `n` bytes from index `a`, big-endian. -/
def memRead (m : Memory) (a : Nat) : Nat → Nat
  | 0 => 0
  | n + 1 => memRead m a n * 256 + (m.read (a + n)).toNat

/-- The bytes `MemWrite(OUT, a, n, v)` of R12 writes, from index `a` on: `v` in `n` bytes, big-endian. -/
def beBytes (n v : Nat) : List Byte :=
  (List.range n).map fun k => BitVec.ofNat 8 (v >>> (8 * (n - 1 - k)))

/-- `sx16` of R11: a 16-bit value read as two's complement. -/
def sx16 (u : Nat) : Int := if u < 32768 then (u : Int) else (u : Int) - 65536

/-- `in[i]` of R12. -/
def Request.byte (q : Request) (i : Nat) : Byte := q.inBuf.read i

/-- `slot_in(s)` of R12 in register form: absent, or the signed value register (R39, R42). -/
def Request.slotIn (q : Request) (s : Slot) : Option Int :=
  if q.rdPresent.getLsbD s.num then some (q.rdValue.get s).toInt else none

/-- `VALUE_in(s)` of R44: the exact physical value of a present input slot, or absent. -/
def Request.valueIn (q : Request) (s : Slot) : Option ℚ := (q.slotIn s).map fun (v : Int) => (v : ℚ) / (s.unit : ℚ)

end Sys2Proof.Machine
end

