-- ==== Sys2Proof/Machine/Tables.lean ====
section
/-! DEFINITION. The sentinel/scale tables of 40_primitives.md R131 (constants of the block, R130), and what the shared
unpacker, packer and quantizer do with one row: R132 to R151. Scales and offsets stand in register units (R44), so the
quantizers are the integer forms of R151. -/

namespace Sys2Proof.Machine

/-- A linear row of R131: `v = raw × scale + offset` in register units. -/
structure Field where
  /-- The reading slot. -/
  slot : Slot
  /-- Its first frame byte. -/
  base : Nat
  /-- How many bytes are read as one big-endian number. -/
  bytes : Nat
  /-- The lowest bit of the field in that number. -/
  shift : Nat
  /-- The field's width in bits. -/
  bits : Nat
  /-- Raw type signed 16-bit (R132). -/
  signed : Bool
  /-- Register units in one raw step. -/
  scale : Int
  /-- Register units at raw 0. -/
  offset : Int
  /-- The raw value that means "no valid reading"; none for the Format-3 accelerations (R135). -/
  sentinel : Option Int
  /-- F5.BAT and F5.TX: the encoded raw is masked to the field's width and never refused (R142). -/
  masked : Bool
  deriving DecidableEq, Repr

/-- An unsigned field that fills its bytes. -/
def Field.unsigned (slot : Slot) (base bytes : Nat) (scale offset : Int) (sentinel : Int) : Field :=
  { slot := slot, base := base, bytes := bytes, shift := 0, bits := 8 * bytes, signed := false, scale := scale,
    offset := offset, sentinel := some sentinel, masked := false }

/-- A signed 16-bit field. -/
def Field.signed16 (slot : Slot) (base : Nat) (scale : Int) (sentinel : Option Int) : Field :=
  { slot := slot, base := base, bytes := 2, shift := 0, bits := 16, signed := true, scale := scale, offset := 0,
    sentinel := sentinel, masked := false }

/-- F5.T: ×0.005 °C. -/
def f5T : Field := .signed16 .temperature 1 5000 (some (-32768))
/-- F5.H: ×0.0025 %. -/
def f5H : Field := .unsigned .humidity 3 2 2500 0 65535
/-- F5.P: 1 Pa from 50000 Pa. -/
def f5P : Field := .unsigned .pressure 5 2 1000000 50000000000 65535
/-- F5.AX: ×0.001 G. -/
def f5AX : Field := .signed16 .accelX 7 1000 (some (-32768))
/-- F5.AY: ×0.001 G. -/
def f5AY : Field := .signed16 .accelY 9 1000 (some (-32768))
/-- F5.AZ: ×0.001 G. -/
def f5AZ : Field := .signed16 .accelZ 11 1000 (some (-32768))
/-- F5.BAT: power[15:5], 1 mV from 1600 mV (R133). -/
def f5BAT : Field :=
  { slot := .batteryVoltage, base := 13, bytes := 2, shift := 5, bits := 11, signed := false, scale := 1000000,
    offset := 1600000000, sentinel := some 2047, masked := true }
/-- F5.TX: power[4:0], 2 dBm from −40 dBm (R133). -/
def f5TX : Field :=
  { slot := .txPower, base := 13, bytes := 2, shift := 0, bits := 5, signed := false, scale := 2000000,
    offset := -40000000, sentinel := some 31, masked := true }
/-- F5.MOV. -/
def f5MOV : Field := .unsigned .movementCounter 15 1 1 0 255
/-- F5.SEQ. -/
def f5SEQ : Field := .unsigned .measurementSequence 16 2 1 0 65535
/-- F5.ID: six bytes, byte 18 most significant (R79, R149, R193). -/
def f5ID : Field := .unsigned .deviceId 18 6 1 0 281474976710655

/-- F3.H: ×0.5 %, sentinel 0. -/
def f3H : Field := .unsigned .humidity 1 1 500000 0 0
/-- F3.P: 1 Pa from 50000 Pa, sentinel 0. -/
def f3P : Field := .unsigned .pressure 4 2 1000000 50000000000 0
/-- F3.AX: ×0.001 G, no sentinel (R135). -/
def f3AX : Field := .signed16 .accelX 6 1000 none
/-- F3.AY: ×0.001 G, no sentinel. -/
def f3AY : Field := .signed16 .accelY 8 1000 none
/-- F3.AZ: ×0.001 G, no sentinel. -/
def f3AZ : Field := .signed16 .accelZ 10 1000 none
/-- F3.BAT: 1 mV, sentinel 0. -/
def f3BAT : Field := .unsigned .batteryVoltage 12 2 1000000 0 0

/-- F24.H: ×0.5 %, sentinel 0. -/
def f24H : Field := .unsigned .humidity 1 1 500000 0 0
/-- F24.P: 1 Pa from 50000 Pa, sentinel 0. -/
def f24P : Field := .unsigned .pressure 4 2 1000000 50000000000 0

/-- The linear rows of R131. F3.T, F24.T and F4.ID are the rows that are not linear. -/
def linearFields : List Field :=
  [f5T, f5H, f5P, f5AX, f5AY, f5AZ, f5BAT, f5TX, f5MOV, f5SEQ, f5ID, f3H, f3P, f3AX, f3AY, f3AZ, f3BAT, f24H, f24P]

/-- `LEN(n)` of R115; no other tag has a length. -/
def frameLength (tag : Byte) : Option Nat :=
  if tag = 2 then some 6
  else if tag = 3 then some 14
  else if tag = 4 then some 7
  else if tag = 5 then some 24
  else none

/-- The smallest raw value the field can hold (R131, R141). -/
def Field.lo (f : Field) : Int := if f.signed then -32768 else 0

/-- The largest raw value the field can hold (R131, R141). -/
def Field.hi (f : Field) : Int := if f.signed then 32767 else 2 ^ f.bits - 1

/-- The raw extraction of R131 to R133. -/
def Field.raw (f : Field) (m : Memory) : Int :=
  let u := (memRead m f.base f.bytes >>> f.shift) % 2 ^ f.bits
  if f.signed then sx16 u else u

/-- The register value of a raw value (R137, R45): exact. -/
def Field.valueOf (f : Field) (raw : Int) : Int := raw * f.scale + f.offset

/-- The decoded slot (R134, R135): absent exactly when the raw value equals the field's sentinel. -/
def Field.decode (f : Field) (m : Memory) : Option Int :=
  if f.sentinel = some (f.raw m) then none else some (f.valueOf (f.raw m))

/-- The quantizer (R139, R151): truncation toward zero of the exact raw quotient. -/
def Field.quantize (f : Field) (v : Int) : Int := tdiv (v - f.offset) f.scale

/-- The raw value an encode writes (R138, R141, R142): an absent slot its sentinel, a masked field its low bits, any other
its quantized value if it is in range. None is EncodeDomain: out of range, or absent with no sentinel to write (R242). -/
def Field.encodeRaw (f : Field) (q : Request) : Option Int :=
  match q.slotIn f.slot with
  | none => f.sentinel
  | some v =>
    if f.masked then some (f.quantize v % 2 ^ f.bits)
    else if f.lo ≤ f.quantize v ∧ f.quantize v ≤ f.hi then some (f.quantize v)
    else none

/-- The bytes an encode writes for a field that fills its bytes; a signed raw value goes through `u16` (R11, R138). -/
def Field.encode (f : Field) (q : Request) : Option (List Byte) :=
  (f.encodeRaw q).map fun raw => beBytes f.bytes (raw % 2 ^ (8 * f.bytes)).toNat

/-- The bytes of a frame part by part, or none as soon as a part cannot be encoded (R138, R306). -/
def joinParts : List (Option (List Byte)) → Option (List Byte)
  | [] => some []
  | none :: _ => none
  | some b :: rest =>
    match joinParts rest with
    | none => none
    | some bs => some (b ++ bs)

/-- The response of an ENCODE command (R38, R306, R310): NilInput first, then EncodeDomain, else the frame. -/
def encodeResponse (tag : Byte) (frame : Request → Option (List Byte)) (q : Request) : Response :=
  if q.rdValid then
    match frame q with
    | none => errorResponse .encodeDomain
    | some bs => bytesResponse tag bs
  else errorResponse .nilInput

/-- The response of a DECODE command (R310): InvalidLength first, then WrongFormatTag, else the reading. -/
def decodeResponse (tag : Byte) (len : Nat) (slots : Memory → Slot → Option Int) (q : Request) : Response :=
  if q.inLen.toNat ≠ len then errorResponse .invalidLength
  else if q.byte 0 ≠ tag then errorResponse .wrongFormatTag
  else readingResponse tag (slots q.inBuf)

/-! ### Sign-magnitude temperature -/

/-- Sign-magnitude decode in register units (R143, R144, R148): the whole degrees and the hundredths take one sign. -/
def smagDecode (b2 b3 : Byte) (withFraction : Bool) : Option Int :=
  if b2 = 0 ∧ b3 = 0 then none
  else
    let w : Int := (b2.extractLsb' 0 7).toNat
    let f : Int := b3.toNat
    let mag := w * 1000000 + (if withFraction then f * 10000 else 0)
    some (if b2.getLsbD 7 then -mag else mag)

/-- Whether an encode sets the sign bit (R147). -/
def smagNeg (src : SignSource) (v : Int) : Bool :=
  match src with
  | .value => decide (v < 0)
  | .whole => decide (tdiv v 1000000 < 0)

/-- The two temperature bytes: sign bit and whole degrees, then the hundredths. -/
def smagBytes (neg : Bool) (w f : Nat) : List Byte :=
  [(if neg then 0x80#8 else 0x00#8) ||| BitVec.ofNat 8 w, BitVec.ofNat 8 f]

/-- Sign-magnitude encode with fraction (R145), in value-register form: hundredths rounded half away from zero, a rounded
100 carried, EncodeDomain above 127 degrees. -/
def smagEncodeFrac (src : SignSource) (v : Int) : Option (List Byte) :=
  let w := v.natAbs / 1000000
  let f := (v.natAbs % 1000000 + 5000) / 10000
  let w' := if f = 100 then w + 1 else w
  let f' := if f = 100 then 0 else f
  if 127 < w' then none else some (smagBytes (smagNeg src v) w' f')

/-- Sign-magnitude encode of whole degrees (R146): the fraction is dropped, byte 3 is 0. -/
def smagEncodeWhole (src : SignSource) (v : Int) : Option (List Byte) :=
  let w := v.natAbs / 1000000
  if 127 < w then none else some (smagBytes (smagNeg src v) w 0)

/-- The temperature part of a Format-2, -3 or -4 frame (R240, R272): an absent slot writes `00 00`. -/
def smagPart (enc : Int → Option (List Byte)) (q : Request) : Option (List Byte) :=
  match q.slotIn .temperature with
  | none => some [0x00#8, 0x00#8]
  | some v => enc v

end Sys2Proof.Machine
end

