-- ==== Sys2Proof/Machine/Detector.lean ====
section
/-! DEFINITION. The Format Detector: 41_detector.md. -/

namespace Sys2Proof.Machine

/-- The response of DETECT (R180): the tag byte only, no length check (R181). -/
def detectResponse (q : Request) : Response :=
  if q.inLen = 0 then errorResponse .emptyInput
  else if (frameLength (q.byte 0)).isSome then tagResponse (q.byte 0)
  else errorResponse .unknownFormat

/-- DETECT (R180). -/
def execDetect (s : State) : Host.Outcome State Fault Refusal := transact detectResponse s

end Sys2Proof.Machine
end

