-- ==== Sys2Proof/Machine/Envelope.lean ====
section
/-! DEFINITION. The manufacturer envelope: 42_format5.md section 3. -/

namespace Sys2Proof.Machine

/-- Bytes `a` to `a + 23` of the input: the envelope's payload. -/
def payload (q : Request) (a : Nat) : List Byte := (List.range 24).map fun i => q.byte (a + i)

/-- The response of ENV.WRAP (R210): the prefix, then the 24 bytes unchanged and unchecked (R211). -/
def envWrapResponse (cfg : Config) (q : Request) : Response :=
  if q.inLen.toNat ≠ 24 then errorResponse .invalidLength
  else bytesResponse 0 (cfg.envPrefix0 :: cfg.envPrefix1 :: payload q 0)

/-- The response of ENV.STRIP (R213): bytes 2 to 25; bytes 0 and 1 are not read (R214). -/
def envStripResponse (q : Request) : Response :=
  if q.inLen.toNat ≠ 26 then errorResponse .invalidLength
  else bytesResponse 0 (payload q 2)

/-- ENV.WRAP (R210). -/
def execEnvWrap (s : State) : Host.Outcome State Fault Refusal := transact (envWrapResponse s.cfg) s

/-- ENV.STRIP (R213). -/
def execEnvStrip (s : State) : Host.Outcome State Fault Refusal := transact envStripResponse s

end Sys2Proof.Machine
end

