-- ==== Sys2Proof/Machine/Format24.lean ====
section
/-! DEFINITION. The Format-2 and Format-4 codecs: 44_format2_4.md. -/

namespace Sys2Proof.Machine

/-- The reading Formats 2 and 4 share (R263): temperature, humidity and pressure, every other slot absent. -/
def slotsF24 (cfg : Config) (m : Memory) : Slot → Option Int
  | .temperature => smagDecode (m.read 2) (m.read 3) cfg.f24DecodeFraction
  | .humidity => f24H.decode m
  | .pressure => f24P.decode m
  | _ => none

/-- `coarse_id_decode` of R262: the six upper bits, raw 0 absent; bits [1:0] never matter. -/
def coarseIdDecode (form : F4IdForm) (b : Byte) : Option Int :=
  if b.toNat >>> 2 = 0 then none
  else
    match form with
    | .shifted => some ((b.toNat >>> 2 : Nat) : Int)
    | .inPlace => some (((b.toNat >>> 2) <<< 2 : Nat) : Int)

/-- The reading of a Format-4 frame (R261): Format-2's fields and the identifier of byte 6. -/
def slotsF4 (cfg : Config) (m : Memory) : Slot → Option Int
  | .coarseId => coarseIdDecode cfg.f4IdForm (m.read 6)
  | s => slotsF24 cfg m s

/-- `coarse_id_encode` of R262: byte 6, or none for EncodeDomain; bits [1:0] are written 0. -/
def coarseIdPart (form : F4IdForm) (q : Request) : Option (List Byte) :=
  match q.slotIn .coarseId with
  | none => some [0x00#8]
  | some v =>
    match form with
    | .shifted => if 0 ≤ v ∧ v ≤ 63 then some [BitVec.ofNat 8 (v.toNat <<< 2)] else none
    | .inPlace => if 0 ≤ v ∧ v ≤ 255 then some [BitVec.ofNat 8 v.toNat &&& 0xFC#8] else none

/-- The parts Formats 2 and 4 share (R272): humidity, temperature in whole degrees, pressure. -/
def partsF24 (cfg : Config) (q : Request) : List (Option (List Byte)) :=
  [f24H.encode q, smagPart (smagEncodeWhole cfg.signSource) q, f24P.encode q]

/-- The 6 bytes of a Format-2 frame (R112, R270), or none for EncodeDomain. -/
def frameF2 (cfg : Config) (q : Request) : Option (List Byte) := joinParts (some [0x02#8] :: partsF24 cfg q)

/-- The 7 bytes of a Format-4 frame (R113, R271), or none for EncodeDomain. -/
def frameF4 (cfg : Config) (q : Request) : Option (List Byte) :=
  joinParts (some [0x04#8] :: partsF24 cfg q ++ [coarseIdPart cfg.f4IdForm q])

/-- The response of DECODE.F2 (R260). -/
def decodeF2Response (cfg : Config) (q : Request) : Response := decodeResponse 2 6 (slotsF24 cfg) q

/-- The response of DECODE.F4 (R261). -/
def decodeF4Response (cfg : Config) (q : Request) : Response := decodeResponse 4 7 (slotsF4 cfg) q

/-- The response of ENCODE.F2 (R270). -/
def encodeF2Response (cfg : Config) (q : Request) : Response := encodeResponse 2 (frameF2 cfg) q

/-- The response of ENCODE.F4 (R271). -/
def encodeF4Response (cfg : Config) (q : Request) : Response := encodeResponse 4 (frameF4 cfg) q

/-- DECODE.F2 (R260). -/
def execDecodeF2 (s : State) : Host.Outcome State Fault Refusal := transact (decodeF2Response s.cfg) s

/-- DECODE.F4 (R261). -/
def execDecodeF4 (s : State) : Host.Outcome State Fault Refusal := transact (decodeF4Response s.cfg) s

/-- ENCODE.F2 (R270). -/
def execEncodeF2 (s : State) : Host.Outcome State Fault Refusal := transact (encodeF2Response s.cfg) s

/-- ENCODE.F4 (R271). -/
def execEncodeF4 (s : State) : Host.Outcome State Fault Refusal := transact (encodeF4Response s.cfg) s

end Sys2Proof.Machine
end

