-- ==== Sys2Proof/Machine/Format3.lean ====
section
/-! DEFINITION. The Format-3 codec: 43_format3.md. -/

namespace Sys2Proof.Machine

/-- The reading of a Format-3 frame (R230): slots 7 to 11 foreign, accelerations never absent (R232). -/
def slotsF3 (m : Memory) : Slot → Option Int
  | .temperature => smagDecode (m.read 2) (m.read 3) true
  | .humidity => f3H.decode m
  | .pressure => f3P.decode m
  | .accelX => f3AX.decode m
  | .accelY => f3AY.decode m
  | .accelZ => f3AZ.decode m
  | .batteryVoltage => f3BAT.decode m
  | .txPower => none
  | .movementCounter => none
  | .measurementSequence => none
  | .deviceId => none
  | .coarseId => none

/-- The response of DECODE.F3 (R230). -/
def decodeF3Response (q : Request) : Response := decodeResponse 3 14 slotsF3 q

/-- DECODE.F3 (R230). -/
def execDecodeF3 (s : State) : Host.Outcome State Fault Refusal := transact decodeF3Response s

/-- The 14 bytes of a Format-3 frame (R111, R240), or none for EncodeDomain. -/
def frameF3 (cfg : Config) (q : Request) : Option (List Byte) :=
  joinParts
    [some [0x03#8], f3H.encode q, smagPart (smagEncodeFrac cfg.signSource) q, f3P.encode q, f3AX.encode q,
      f3AY.encode q, f3AZ.encode q, f3BAT.encode q]

/-- The response of ENCODE.F3 (R240). -/
def encodeF3Response (cfg : Config) (q : Request) : Response := encodeResponse 3 (frameF3 cfg) q

/-- ENCODE.F3 (R240). -/
def execEncodeF3 (s : State) : Host.Outcome State Fault Refusal := transact (encodeF3Response s.cfg) s

end Sys2Proof.Machine
end

