-- ==== Sys2Proof/Machine/Format5.lean ====
section
/-! DEFINITION. The Format-5 codec: 42_format5.md sections 1 and 2. -/

namespace Sys2Proof.Machine

/-- The reading of a Format-5 frame (R190): every field on its own, slot 11 foreign. -/
def slotsF5 (m : Memory) : Slot → Option Int
  | .temperature => f5T.decode m
  | .humidity => f5H.decode m
  | .pressure => f5P.decode m
  | .accelX => f5AX.decode m
  | .accelY => f5AY.decode m
  | .accelZ => f5AZ.decode m
  | .batteryVoltage => f5BAT.decode m
  | .txPower => f5TX.decode m
  | .movementCounter => f5MOV.decode m
  | .measurementSequence => f5SEQ.decode m
  | .deviceId => f5ID.decode m
  | .coarseId => none

/-- The response of DECODE.F5 (R190). -/
def decodeF5Response (q : Request) : Response := decodeResponse 5 24 slotsF5 q

/-- DECODE.F5 (R190). -/
def execDecodeF5 (s : State) : Host.Outcome State Fault Refusal := transact decodeF5Response s

/-- The power-info word (R142, R202): battery in [15:5], tx power in [4:0], each part's sentinel on its own. -/
def powerPart (q : Request) : Option (List Byte) :=
  match f5BAT.encodeRaw q, f5TX.encodeRaw q with
  | some b, some t => some (beBytes 2 ((b.toNat <<< 5) ||| t.toNat))
  | _, _ => none

/-- The 24 bytes of a Format-5 frame (R110, R200), or none for EncodeDomain. -/
def frameF5 (q : Request) : Option (List Byte) :=
  joinParts
    [some [0x05#8], f5T.encode q, f5H.encode q, f5P.encode q, f5AX.encode q, f5AY.encode q, f5AZ.encode q,
      powerPart q, f5MOV.encode q, f5SEQ.encode q, f5ID.encode q]

/-- The response of ENCODE.F5 (R200). -/
def encodeF5Response (q : Request) : Response := encodeResponse 5 frameF5 q

/-- ENCODE.F5 (R200). -/
def execEncodeF5 (s : State) : Host.Outcome State Fault Refusal := transact encodeF5Response s

end Sys2Proof.Machine
end

