-- ==== Sys2Proof/Machine/Unified.lean ====
section
/-! DEFINITION. The Unified Decoder: 45_unified.md. -/

namespace Sys2Proof.Machine

/-- The response of DECODE.ANY (R290): the detector's two errors, else the response of the codec the tag names, unchanged
(R291, R292). -/
def decodeAnyResponse (cfg : Config) (q : Request) : Response :=
  if q.inLen = 0 then errorResponse .emptyInput
  else if q.byte 0 = 2 then decodeF2Response cfg q
  else if q.byte 0 = 3 then decodeF3Response q
  else if q.byte 0 = 4 then decodeF4Response cfg q
  else if q.byte 0 = 5 then decodeF5Response q
  else errorResponse .unknownFormat

/-- DECODE.ANY (R290). -/
def execDecodeAny (s : State) : Host.Outcome State Fault Refusal := transact (decodeAnyResponse s.cfg) s

end Sys2Proof.Machine
end

