-- ==== Sys2Proof/Machine/Dispatch.lean ====
section
/-! DEFINITION. The meaning of each command: one arm per row of spec/opcode_table.json. -/

namespace Sys2Proof.Machine

/-- The completion of the pending transaction by the command `i` (R48). -/
def exec (i : Instr) (s : State) : Host.Outcome State Fault Refusal :=
  match i with
  | .detect => Sys2Proof.Machine.execDetect s
  | .decodeAny => Sys2Proof.Machine.execDecodeAny s
  | .decodeF2 => Sys2Proof.Machine.execDecodeF2 s
  | .decodeF3 => Sys2Proof.Machine.execDecodeF3 s
  | .decodeF4 => Sys2Proof.Machine.execDecodeF4 s
  | .decodeF5 => Sys2Proof.Machine.execDecodeF5 s
  | .encodeF2 => Sys2Proof.Machine.execEncodeF2 s
  | .encodeF3 => Sys2Proof.Machine.execEncodeF3 s
  | .encodeF4 => Sys2Proof.Machine.execEncodeF4 s
  | .encodeF5 => Sys2Proof.Machine.execEncodeF5 s
  | .envWrap => Sys2Proof.Machine.execEnvWrap s
  | .envStrip => Sys2Proof.Machine.execEnvStrip s

end Sys2Proof.Machine
end

