-- ==== Sys2Proof/Machine/Agents.lean ====
section
/-! DEFINITION. What each agent's move does: the codec unit (10_state.md R30, R48) and the host with the platform's reset
input (R30, R85, 30_encoding.md R105 and R106, 70_reset_and_hazards.md R340). -/

namespace Sys2Proof.Machine

/-- The codec unit's one step (R30, R48): it completes the pending transaction with the command its snapshot holds, an
illegal code with IllegalCommand (R103). With no transaction pending it has no move. -/
def codecMove (s : State) : Host.Outcome State Fault Refusal :=
  match s.snapshot with
  | none => .next s
  | some q =>
    match Sys2Proof.decode q.cmd with
    | .ok i => exec i s
    | .error _ => .next (s.raise .illegalCommand)

/-- The copies of MOVE (R105): for i < n, a read of OUT_BUF[i] and a write of it to IN_BUF[i]; then IN_LEN <- n. -/
def moveActs (base n : Nat) : List BusAct :=
  (List.range n).flatMap (fun i => [.read (base + 0x200 + i), .writeBack (base + 0x100 + i)])
    ++ [.write (base + 0x03) (BitVec.ofNat 64 n)]

/-- STATUS as the host reads it: a poll, or a check of CODE. -/
def State.readStatus (s : State) : State := { s with hostData := windowRead 0x02 s }

/-- One act of the outside world, in a state whose agenda holds the acts after it. -/
def hostMove (a : BusAct) (s : State) : Host.Outcome State Fault Refusal :=
  match a with
  | .write addr v => busWrite addr v s
  | .read addr => busRead addr s
  | .writeBack addr => busWrite addr s.hostData s
  | .codec => codecMove s
  | .waitDone => if s.done then .next s.readStatus else codecMove { s with agenda := .waitDone :: s.agenda }
  | .move =>
    .next { s with
      hostData := windowRead 0x09 s
      agenda := moveActs s.cfg.windowBase (windowRead 0x09 s).toNat ++ s.agenda }
  | .stopUnlessOk n =>
    if s.resp.code = StatusCode.ok.bits then .next s.readStatus
    else .next { s.readStatus with agenda := s.agenda.drop n }
  | .reset => .next s.resetBlock

/-- The next move of one instance and its host: the host's next act, or the codec unit's step when the host has none. A
reserved status code is a fault (R301, 93 I10). -/
def moveOnce (s : State) : Host.Outcome State Fault Refusal :=
  if codeReserved s.resp.code then .fault .reservedStatusCode
  else
    match s.agenda with
    | [] => codecMove s
    | a :: rest => hostMove a { s with agenda := rest }

/-- The state right after the host has written `b` to CMD and the block has accepted a GO (R48), the codec unit to move
next. -/
def State.pending (b : Byte) (s : State) : State :=
  { s with
    req := { s.req with cmd := b }
    snapshot := some { s.req with cmd := b }
    busy := true
    done := false
    agenda := .codec :: s.agenda }

end Sys2Proof.Machine
end

