-- ==== Sys2Proof/Machine/Step.lean ====
section
/-! DEFINITION. One step of the machine, and how a command word comes to be the next one run. -/

namespace Sys2Proof.Machine

/-- One step: the next move of the host, the platform or the codec unit. -/
def step (s : State) : Host.Outcome State Fault Refusal := moveOnce s

/-- The state in which the very next step completes the command word `w` (log 5): a command is one byte. -/
def State.withFetchWord (s : State) (nbits w : Nat) : State := s.pending (BitVec.ofNat 8 (w % 2 ^ min nbits 8))

end Sys2Proof.Machine
end

