-- ==== Sys2Proof/Machine/Bank.lean ====
section
/-! DEFINITION. Several codec-bank instances (10_state.md R30, 60_exceptions.md R330): each has its own state and its own
host, and they share no mutable state. -/

namespace Sys2Proof.Machine

/-- The instances of a system. -/
abbrev Bank := List State

/-- A step of instance `k`; a number that names no instance changes nothing. -/
def Bank.step (k : Nat) (b : Bank) : Host.Outcome Bank Fault Refusal :=
  match b[k]? with
  | none => .next b
  | some s =>
    match Sys2Proof.Machine.step s with
    | .next t => .next (b.set k t)
    | .fault r => .fault r
    | .refused r => .refused r

end Sys2Proof.Machine
end

