-- ==== Sys2Proof/Machine/Script.lean ====
section
/-! DEFINITION. The host script of 30_encoding.md R105 and R106: its statements, and the register accesses each one stands
for (95_test_vectors.md section 10 gives the sequences). -/

namespace Sys2Proof.Machine

/-- What an EXPECT names: a window entry, or the CODE field of STATUS. -/
inductive Observable where
  | code
  | entry (off : Nat)
  deriving DecidableEq, Repr

/-- A statement of the host script (R105), a pseudo-instruction included (R106). -/
inductive ScriptStmt where
  /-- `WRIN <hex>`. -/
  | wrin (bytes : List Byte)
  /-- `WRRD <fmt> {…}`: the listed slots with their physical values; `fmt` is documentation only. -/
  | wrrd (fmt : Nat) (slots : List (Slot × ℚ))
  /-- `NILRD`. -/
  | nilrd
  /-- `<MNEMONIC>`: run a command and wait for DONE. -/
  | run (i : Instr)
  /-- `MOVE`. -/
  | move
  /-- `EXPECT <reg>=<value>`. -/
  | expect (what : Observable) (value : Value)
  /-- `DECODE.ENV`. -/
  | decodeEnv
  /-- `ENCODE.ENV`. -/
  | encodeEnv
  /-- `CHECK.<MNEMONIC>`. -/
  | check (i : Instr)
  deriving DecidableEq, Repr

/-- The register form of a physical value (R44, R105). -/
def registerForm (s : Slot) (v : ℚ) : Value := BitVec.ofInt 64 (trunc (v * (s.unit : ℚ)))

/-- The value a WRRD writes to a slot's register: 0 for an unlisted slot. -/
def listedValue (slots : List (Slot × ℚ)) (s : Slot) : Value :=
  match slots.find? fun p => decide (p.1 = s) with
  | some p => registerForm s p.2
  | none => 0

/-- The accesses of a mnemonic: CMD <- code, GO, wait. -/
def runActs (base : Nat) (i : Instr) : List BusAct :=
  [.write (base + 0x00) ((encode i).setWidth 64), .write (base + 0x01) 1, .waitDone]

/-- The accesses a statement stands for. EXPECT has no effect on the block. A pseudo-instruction runs its parts and stops at
the first command that does not end in OK. -/
def ScriptStmt.expand (base : Nat) : ScriptStmt → List BusAct
  | .wrin bytes =>
    .write (base + 0x03) (BitVec.ofNat 64 bytes.length)
      :: bytes.mapIdx fun i b => .write (base + 0x100 + i) (b.setWidth 64)
  | .wrrd _ slots =>
    .write (base + 0x04) 1
      :: .write (base + 0x05) ((presentMask fun s => slots.any fun p => decide (p.1 = s)).setWidth 64)
      :: Slot.all.map fun s => .write (base + 0x10 + s.num) (listedValue slots s)
  | .nilrd => [.write (base + 0x04) 0]
  | .run i => runActs base i
  | .move => [.move]
  | .expect _ _ => []
  | .decodeEnv =>
    runActs base .envStrip ++ .stopUnlessOk (1 + (runActs base .decodeF5).length) :: .move :: runActs base .decodeF5
  | .encodeEnv =>
    runActs base .encodeF5 ++ .stopUnlessOk (1 + (runActs base .envWrap).length) :: .move :: runActs base .envWrap
  | .check i => runActs base i

/-- Whether an EXPECT's assertion holds. -/
def ScriptStmt.expectHolds (what : Observable) (value : Value) (s : State) : Bool :=
  match what with
  | .code => decide (s.resp.code.setWidth 64 = value)
  | .entry off => decide (windowRead off s = value)

/-- A host script put after the acts the host still has to make. -/
def State.withScript (s : State) (p : List ScriptStmt) : State :=
  { s with agenda := s.agenda ++ p.flatMap (ScriptStmt.expand s.cfg.windowBase) }

end Sys2Proof.Machine
end

