-- ==== Sys2Proof/WellFormed.lean ====
section
/-! DEFINITION. What is well formed: a command, the parameters, a host access and a statement of the host script. -/

namespace Sys2Proof

/-- Every command is well formed: it has no operand of its own (R102, R104). -/
def Instr.wf : Instr → Bool
  | .detect => true
  | .decodeAny => true
  | .decodeF2 => true
  | .decodeF3 => true
  | .decodeF4 => true
  | .decodeF5 => true
  | .encodeF2 => true
  | .encodeF3 => true
  | .encodeF4 => true
  | .encodeF5 => true
  | .envWrap => true
  | .envStrip => true

/-- 26 <= IN_CAP <= 255 (R7, D28). -/
def Config.wf (c : Config) : Bool := decide (26 ≤ c.inCap) && decide (c.inCap ≤ 255)

namespace Machine

/-- The host's duties for one write: the address lies in the window, the value has the entry's width (R81), and IN_LEN does
not exceed IN_CAP (R352). -/
def writeWf (cfg : Config) (addr : Nat) (v : Value) : Bool :=
  decide (cfg.windowBase ≤ addr) &&
    match entryAt cfg (addr - cfg.windowBase) with
    | .reserved => true
    | .inLen => decide (v.toNat ≤ cfg.inCap)
    | e => decide (v.toNat < 2 ^ e.width)

/-- The host's duties for one act. -/
def BusAct.wf (cfg : Config) : BusAct → Bool
  | .write addr v => writeWf cfg addr v
  | .read addr => decide (cfg.windowBase ≤ addr)
  | .writeBack addr => decide (cfg.windowBase ≤ addr)
  | .codec => true
  | .waitDone => true
  | .move => true
  | .stopUnlessOk _ => true
  | .reset => true

/-- A physical value that its register can hold exactly (R44, R46). -/
def representable (s : Slot) (v : ℚ) : Bool :=
  decide ((v * (s.unit : ℚ)).den = 1) && decide (-(2 ^ 63) ≤ (v * (s.unit : ℚ)).num) &&
    decide ((v * (s.unit : ℚ)).num < 2 ^ 63)

/-- A statement the notation can carry out: input that fits IN_BUF, each slot listed once with an exact value. -/
def ScriptStmt.wf (cfg : Config) : ScriptStmt → Bool
  | .wrin bytes => decide (bytes.length ≤ cfg.inCap)
  | .wrrd _ slots => decide ((slots.map Prod.fst).Nodup) && slots.all fun p => representable p.1 p.2
  | .nilrd => true
  | .run i => i.wf
  | .move => true
  | .expect _ _ => true
  | .decodeEnv => true
  | .encodeEnv => true
  | .check i => i.wf

end Machine

end Sys2Proof
end

