-- ==== Sys2Proof/Safety.lean ====
section
/-! DEFINITION. The terms claims use: the invariant of the machine, what a response's slot says, and which outcomes the
source itself defines. -/

namespace Sys2Proof.Machine

/-- Request registers that respect the host's duties: IN_LEN <= IN_CAP (R352), IN_BUF canonical and inside its window. -/
def Request.inv (cfg : Config) (q : Request) : Bool :=
  decide (q.inLen.toNat ≤ cfg.inCap) && q.inBuf.wf && q.inBuf.below cfg.inCap

/-- An absent output slot holds 0 (R45). -/
def Response.absentZero (r : Response) : Bool :=
  Slot.all.all fun s => r.rdPresent.getLsbD s.num || decide (r.rdValue.get s = 0)

/-- Response registers of the form every completion leaves: CODE not reserved (R301); OUT_LEN <= 26 and OUT_BUF 0 from
OUT_LEN on (R73); absent slots 0 (R45); no slot present unless VALID = 1 (R43, R307); after an error everything else 0
(R306). -/
def Response.inv (r : Response) : Bool :=
  !codeReserved r.code && decide (r.outLen.toNat ≤ outCap) && r.outBuf.wf && r.outBuf.below r.outLen.toNat &&
    r.absentZero && (r.rdValid || decide (r.rdPresent = 0)) &&
    (decide (r.code = 0) || decide (r = { Response.zero with code := r.code }))

/-- The invariant of one instance: parameters in their range (R7), request, snapshot and response in form, a snapshot
exactly while BUSY = 1 (R53), and BUSY = 1 and DONE = 1 never together (R36). -/
def State.inv (s : State) : Bool :=
  s.cfg.wf && s.req.inv s.cfg && (s.snapshot.all fun q => q.inv s.cfg) && s.resp.inv &&
    (s.busy == s.snapshot.isSome) && !(s.busy && s.done)

/-- Slot `k` of the response holds the physical value `v`, or is absent (R45): present bit 0 and register 0, or present bit
1 and the register exactly `v` times the slot's scale. -/
def Response.HasSlot (r : Response) (k : Slot) : Option ℚ → Prop
  | none => r.rdPresent.getLsbD k.num = false ∧ r.rdValue.get k = 0
  | some v => r.rdPresent.getLsbD k.num = true ∧ ((r.rdValue.get k).toInt : ℚ) = v * (k.unit : ℚ)

/-- A successful decode of format `tag`, apart from its slots (R190, R307): VALID = 1, no output bytes. -/
def Response.IsReading (r : Response) (tag : Byte) : Prop :=
  r.code = 0 ∧ r.fmt = tag ∧ r.rdValid = true ∧ r.outLen = 0 ∧ ∀ k, r.outBuf.read k = 0

/-- A successful command that outputs `len` bytes, apart from those bytes (R73, R307): no reading, zeros from `len` on. -/
def Response.IsFrame (r : Response) (tag : Byte) (len : Nat) : Prop :=
  r.code = 0 ∧ r.fmt = tag ∧ r.outLen.toNat = len ∧ r.rdValid = false ∧ r.rdPresent = 0 ∧
    (∀ k, r.rdValue.get k = 0) ∧ ∀ k, len ≤ k → r.outBuf.read k = 0

/-! ### The rational forms of the rules, in which the statements about readings are written -/

/-- A decoded field in physical units (R134): absent at its sentinel, else `v raw`. -/
def unlessSentinel (raw sentinel : ℤ) (v : ℚ → ℚ) : Option ℚ := if raw = sentinel then none else some (v raw)

/-- `smag_decode` of R143 in physical units. -/
def smagDecodeSpec (b2 b3 : Byte) (withFraction : Bool) : Option ℚ :=
  if b2 = 0 ∧ b3 = 0 then none
  else
    let w : ℚ := (b2.toNat % 128 : ℕ)
    let f : ℚ := b3.toNat
    let mag := w + (if withFraction then f / 100 else 0)
    some (if 128 ≤ b2.toNat then -mag else mag)

/-- The raw value an encode writes before any range check (R138): an absent slot's sentinel, else the quantizer of the
physical value. -/
def Request.rawOr (q : Request) (k : Slot) (sentinel : ℤ) (f : ℚ → ℤ) : ℤ :=
  match q.valueIn k with
  | none => sentinel
  | some v => f v

/-- `lo <= x <= hi`. -/
def within (lo hi x : ℤ) : Prop := lo ≤ x ∧ x ≤ hi

/-- The sign condition of R147 on a physical value. -/
def negSpec (src : SignSource) (v : ℚ) : Prop :=
  match src with
  | .value => v < 0
  | .whole => trunc v < 0

/-- `b2` of R145 and R146 from the sign and the whole degrees. -/
def signedWhole (src : SignSource) (v : ℚ) (w b2 : ℤ) : Prop :=
  (negSpec src v → b2 = 128 + w) ∧ (¬ negSpec src v → b2 = w)

/-- The rounded hundredths of R145, before the carry. -/
def fracSpec (v : ℚ) : ℤ := rhaz ((|v| - (⌊|v|⌋ : ℚ)) * 100)

/-- The whole degrees of R145, after the carry. -/
def wholeSpec (v : ℚ) : ℤ := if fracSpec v = 100 then ⌊|v|⌋ + 1 else ⌊|v|⌋

/-- `(b2, b3)` is what `smag_encode_frac` of R145 gives for a value that fits. -/
def smagFracSpec (src : SignSource) (v : ℚ) (b2 b3 : ℤ) : Prop :=
  signedWhole src v (wholeSpec v) b2 ∧ b3 = if fracSpec v = 100 then 0 else fracSpec v

/-- `(b2, b3)` is what `smag_encode_whole` of R146 gives for a value that fits. -/
def smagWholeSpec (src : SignSource) (v : ℚ) (b2 b3 : ℤ) : Prop := signedWhole src v ⌊|v|⌋ b2 ∧ b3 = 0

/-- No present slot of Format-5 is out of range (R141, R200); battery and tx power are masked and always fit (R142). -/
def fitsF5 (q : Request) : Prop :=
  within (-32768) 32767 (q.rawOr .temperature (-32768) fun v => trunc (200 * v)) ∧
    within 0 65535 (q.rawOr .humidity 65535 fun v => trunc (400 * v)) ∧
    within 0 65535 (q.rawOr .pressure 65535 fun v => trunc (v - 50000)) ∧
    within (-32768) 32767 (q.rawOr .accelX (-32768) fun v => trunc (1000 * v)) ∧
    within (-32768) 32767 (q.rawOr .accelY (-32768) fun v => trunc (1000 * v)) ∧
    within (-32768) 32767 (q.rawOr .accelZ (-32768) fun v => trunc (1000 * v)) ∧
    within 0 255 ((q.slotIn .movementCounter).getD 255) ∧
    within 0 65535 ((q.slotIn .measurementSequence).getD 65535) ∧
    within 0 (2 ^ 48 - 1) ((q.slotIn .deviceId).getD (2 ^ 48 - 1))

/-- The humidity and pressure of Formats 2, 3 and 4 are in range (R240, R272). -/
def fitsHumidityPressure (q : Request) : Prop :=
  within 0 255 (q.rawOr .humidity 0 fun v => trunc (2 * v)) ∧
    within 0 65535 (q.rawOr .pressure 0 fun v => trunc (v - 50000))

/-- No present slot of Format-3 is out of range, and the three accelerations are present (R240, R242). -/
def fitsF3 (q : Request) : Prop :=
  fitsHumidityPressure q ∧
    (∀ v, q.valueIn .temperature = some v → wholeSpec v ≤ 127) ∧
    (∃ v, q.valueIn .accelX = some v ∧ within (-32768) 32767 (trunc (1000 * v))) ∧
    (∃ v, q.valueIn .accelY = some v ∧ within (-32768) 32767 (trunc (1000 * v))) ∧
    (∃ v, q.valueIn .accelZ = some v ∧ within (-32768) 32767 (trunc (1000 * v))) ∧
    within 0 65535 (q.rawOr .batteryVoltage 0 fun v => trunc v)

/-- No present slot of Format-2 is out of range (R272). -/
def fitsF2 (q : Request) : Prop :=
  fitsHumidityPressure q ∧ ∀ v, q.valueIn .temperature = some v → ⌊|v|⌋ ≤ 127

/-- No present slot of Format-4 is out of range (R262, R272). -/
def fitsF4 (cfg : Config) (q : Request) : Prop :=
  fitsF2 q ∧ ∀ v, q.slotIn .coarseId = some v → within 0 (match cfg.f4IdForm with | .shifted => 63 | .inPlace => 255) v

/-- The temperature bytes of an encoded frame: `00 00` for an absent slot, else what `spec` says of the value. -/
def temperatureBytes (q : Request) (spec : ℚ → ℤ → ℤ → Prop) (b2 b3 : Byte) : Prop :=
  match q.valueIn .temperature with
  | none => b2 = 0 ∧ b3 = 0
  | some v => spec v b2.toNat b3.toNat

/-- The outcome is one the source document itself defines (R305): CODE is neither EncodeDomain nor IllegalCommand. A claim
about the source's software takes this as a premise. -/
def State.sourceDefined (s : State) : Bool :=
  decide (s.resp.code ≠ StatusCode.encodeDomain.bits) && decide (s.resp.code ≠ StatusCode.illegalCommand.bits)

end Sys2Proof.Machine
end

