-- ==== Sys2Proof/Certificates/Slice0/Obligations.lean ====
section
/-! DEFINITION. The statements for the provers: what reset leaves, what a command word means, what each access of the host
does, what each command writes, and the laws of the codecs. -/

open Sys2Proof Sys2Proof.Machine

/-! ### Reset -/

/-- R52: after reset every register and every buffer byte is 0, STATUS is 0 and nothing is pending. -/
def Obligations.ResetEntriesReadZero : Prop :=
  (∀ off, windowRead off State.reset = 0) ∧ (∀ k, State.reset.req.inBuf.read k = 0) ∧
    (∀ k, State.reset.resp.outBuf.read k = 0) ∧ statusByte State.reset = 0 ∧ State.reset.snapshot = none

/-- R340: a reset abandons the pending transaction, clears the snapshot and sets every register and buffer byte to 0.
The reset input stands in the agenda (log 4). -/
def Obligations.ResetActClearsTheBlock : Prop :=
  ∀ (s : State) (rest : List BusAct), codeReserved s.resp.code = false → s.agenda = .reset :: rest →
    ∃ t, step s = .next t ∧ t.busy = false ∧ t.done = false ∧ t.snapshot = none ∧ (∀ off, windowRead off t = 0) ∧
      (∀ k, t.req.inBuf.read k = 0) ∧ ∀ k, t.resp.outBuf.read k = 0

/-- The invariant holds right after reset. -/
def Obligations.ResetMeetsTheInvariant : Prop := State.reset.inv = true

/-! ### The command word -/

/-- R101: the twelve codes, written out, name the twelve commands, and every other code is illegal. -/
def Obligations.CommandWordsOfTheMap : Prop :=
  decode 0b00010000#8 = .ok .detect ∧ decode 0b00010001#8 = .ok .decodeAny ∧
    decode 0b00100010#8 = .ok .decodeF2 ∧ decode 0b00100011#8 = .ok .decodeF3 ∧
    decode 0b00100100#8 = .ok .decodeF4 ∧ decode 0b00100101#8 = .ok .decodeF5 ∧
    decode 0b00110010#8 = .ok .encodeF2 ∧ decode 0b00110011#8 = .ok .encodeF3 ∧
    decode 0b00110100#8 = .ok .encodeF4 ∧ decode 0b00110101#8 = .ok .encodeF5 ∧
    decode 0b01000000#8 = .ok .envWrap ∧ decode 0b01000001#8 = .ok .envStrip ∧
    ∀ b : Byte, b ∉ [0x10#8, 0x11#8, 0x22#8, 0x23#8, 0x24#8, 0x25#8, 0x32#8, 0x33#8, 0x34#8, 0x35#8, 0x40#8, 0x41#8] →
      ∃ r, decode b = .error r

/-- Decode and encode agree in both directions, for every byte and every command. -/
def Obligations.DecodeAndEncodeAgree : Prop :=
  ∀ (b : Byte) (i : Instr), decode b = .ok i ↔ encode i = b

/-! ### One step -/

/-- R48: with a legal code in the snapshot, the codec unit's step is `exec` of the decoded command: when the host has no
act pending, when it gives the codec unit the move, and while it polls for DONE. -/
def Obligations.StepRunsTheSnapshotCommand : Prop :=
  ∀ (s : State) (q : Request) (i : Instr), codeReserved s.resp.code = false → s.snapshot = some q →
    decode q.cmd = .ok i →
    (s.agenda = [] → step s = exec i s) ∧
    (∀ rest, s.agenda = .codec :: rest → step s = exec i { s with agenda := rest }) ∧
    (∀ rest, s.agenda = .waitDone :: rest → s.done = false → step s = exec i s)

/-- R103: every code but the twelve names no command, and the codec unit completes it with CODE = IllegalCommand and the
error response. The last clause, when that move is the next step, is the model's scheduling (log 6). -/
def Obligations.IllegalCodeCompletesWithError : Prop :=
  ∀ (s : State) (q : Request), s.snapshot = some q →
    q.cmd ∉ [0x10#8, 0x11#8, 0x22#8, 0x23#8, 0x24#8, 0x25#8, 0x32#8, 0x33#8, 0x34#8, 0x35#8, 0x40#8, 0x41#8] →
    decodeCmd q.cmd = none ∧
    codecMove s =
      .next { s with resp := { Response.zero with code := 7 }, busy := false, done := true, snapshot := none } ∧
    (codeReserved s.resp.code = false → s.agenda = [] → step s = codecMove s)

/-- The invariant is kept by every step, from every state that meets it, reached by a run or not. -/
def Obligations.EveryStepKeepsTheInvariant : Prop :=
  ∀ s t : State, s.inv = true → step s = .next t → t.inv = true

/-- R300: the block never halts. From a state that meets the invariant no step faults, and a step is refused only at a host
access. -/
def Obligations.StopsComeFromHostAccessesOnly : Prop :=
  ∀ s : State, s.inv = true →
    (∀ f, step s ≠ .fault f) ∧
    (∀ r, step s = .refused r →
      ∃ addr v rest,
        s.agenda = .write addr v :: rest ∨ s.agenda = .read addr :: rest ∨ s.agenda = .writeBack addr :: rest)

/-- A host access that keeps the host's duties never stops the machine. -/
def Obligations.DutifulActsNeverStop : Prop :=
  ∀ (s : State) (a : BusAct) (rest : List BusAct), s.inv = true → s.agenda = a :: rest → a.wf s.cfg = true →
    (∀ addr, a ≠ .writeBack addr) → ∃ t, step s = .next t

/-- R301, 93 I10: a state with a reserved status code is a fault state, whatever comes next. -/
def Obligations.ReservedStatusCodeFaults : Prop :=
  ∀ s : State, 8 ≤ s.resp.code.toNat → step s = .fault .reservedStatusCode

/-! ### The handshake and the register window -/

/-- R35, R49: a write of CTRL with bit 0 = 1 latches the whole request and sets BUSY while BUSY = 0, and is ignored while
BUSY = 1; with bit 0 = 0 it has no effect; CTRL reads as 0. -/
def Obligations.GoIsAcceptedOnlyWhileIdle : Prop :=
  ∀ (s : State) (v : Value),
    (v.getLsbD 0 = true → s.busy = false →
      windowWrite 0x01 v s = .next { s with snapshot := some s.req, busy := true, done := false }) ∧
    (v.getLsbD 0 = true → s.busy = true → windowWrite 0x01 v s = .next s) ∧
    (v.getLsbD 0 = false → windowWrite 0x01 v s = .next s) ∧
    windowRead 0x01 s = 0

/-- R36: STATUS is DONE in bit 7, BUSY in bit 6, 0 in bits 5 and 4, CODE in bits 3 to 0. -/
def Obligations.StatusReadsItsFields : Prop :=
  ∀ s : State,
    (windowRead 0x02 s).getLsbD 7 = s.done ∧ (windowRead 0x02 s).getLsbD 6 = s.busy ∧
      (windowRead 0x02 s).getLsbD 5 = false ∧ (windowRead 0x02 s).getLsbD 4 = false ∧
      (windowRead 0x02 s).setWidth 4 = s.resp.code ∧ (windowRead 0x02 s).toNat < 256

/-- R83, R85: a host read changes nothing but what the host holds, and a host write changes nothing but its own entry: no
other entry reads differently, and outside CTRL the handshake stays as it was. -/
def Obligations.AccessesHaveNoOtherEffect : Prop :=
  (∀ (s : State) (off : Nat) (rest : List BusAct), codeReserved s.resp.code = false →
    s.agenda = .read (s.cfg.windowBase + off) :: rest →
    step s = .next { s with agenda := rest, hostData := windowRead off s }) ∧
  ∀ (s t : State) (off : Nat) (v : Value), off ≠ 0x01 → windowWrite off v s = .next t →
    t.cfg = s.cfg ∧ t.resp = s.resp ∧ t.busy = s.busy ∧ t.done = s.done ∧ t.snapshot = s.snapshot ∧
      t.agenda = s.agenda ∧ t.hostData = s.hostData ∧ ∀ off', off' ≠ off → windowRead off' t = windowRead off' s

/-- R33, R34, R39, R42, R72: what the host writes to a read-write entry reads back, less the reserved bits. -/
def Obligations.WrittenEntriesReadBack : Prop :=
  ∀ (s : State) (v : Value), s.inv = true →
    (∃ t, windowWrite 0x00 v s = .next t ∧ windowRead 0x00 t = (v.setWidth 8).setWidth 64) ∧
    ((v.setWidth 8).toNat ≤ s.cfg.inCap →
      ∃ t, windowWrite 0x03 v s = .next t ∧ windowRead 0x03 t = (v.setWidth 8).setWidth 64) ∧
    (∃ t, windowWrite 0x04 v s = .next t ∧ windowRead 0x04 t = (v.setWidth 1).setWidth 64) ∧
    (∃ t, windowWrite 0x05 v s = .next t ∧ windowRead 0x05 t = (v.setWidth 12).setWidth 64) ∧
    (∀ k < 12, ∃ t, windowWrite (0x10 + k) v s = .next t ∧ windowRead (0x10 + k) t = v) ∧
    (∀ i < s.cfg.inCap, ∃ t, windowWrite (0x100 + i) v s = .next t ∧
      windowRead (0x100 + i) t = (v.setWidth 8).setWidth 64)

/-- R47, R72, R84: reserved register numbers and bits read as 0 and ignore writes; read-only registers ignore writes. That the
offsets above 0x2FF are reserved too is DEDUCED (log 9). -/
def Obligations.ReservedAndReadOnlyIgnoreWrites : Prop :=
  ∀ (s : State) (off : Nat) (v : Value), s.cfg.wf = true →
    ((0x0A ≤ off ∧ off ≤ 0x0F ∨ 0x1C ≤ off ∧ off ≤ 0x1F ∨ 0x2C ≤ off ∧ off ≤ 0xFF ∨
        0x100 + s.cfg.inCap ≤ off ∧ off ≤ 0x1FF ∨ 0x21A ≤ off) →
      windowRead off s = 0 ∧ windowWrite off v s = .next s) ∧
    ((off = 0x02 ∨ 0x06 ≤ off ∧ off ≤ 0x09 ∨ 0x20 ≤ off ∧ off ≤ 0x2B ∨ 0x200 ≤ off ∧ off ≤ 0x219) →
      windowWrite off v s = .next s) ∧
    (windowRead 0x01 s = 0 ∧ (windowRead 0x02 s).getLsbD 4 = false ∧ (windowRead 0x02 s).getLsbD 5 = false ∧
      (windowRead 0x04 s).toNat < 2 ∧ (windowRead 0x07 s).toNat < 2 ∧
      (windowRead 0x05 s).toNat < 2 ^ 12 ∧ (windowRead 0x08 s).toNat < 2 ^ 12) ∧
    windowWrite 0x01 v s = windowWrite 0x01 (v &&& 1) s ∧ windowWrite 0x04 v s = windowWrite 0x04 (v &&& 1) s ∧
    windowWrite 0x05 v s = windowWrite 0x05 (v &&& 0xFFF) s

/-- R352: a host write of IN_LEN greater than IN_CAP is refused. -/
def Obligations.InLenBeyondCapacityIsRefused : Prop :=
  ∀ (s : State) (v : Value) (rest : List BusAct), codeReserved s.resp.code = false →
    s.agenda = .write (s.cfg.windowBase + 0x03) v :: rest → s.cfg.inCap < (v.setWidth 8).toNat →
    step s = .refused .inLenBeyondCapacity

/-- R48, R353: the host's accesses during a transaction change neither the snapshot nor the response nor the handshake. -/
def Obligations.HostAccessesLeaveTheTransactionAlone : Prop :=
  ∀ (s t : State) (a : BusAct) (rest : List BusAct), s.busy = true → s.agenda = a :: rest →
    (∃ addr v, a = .write addr v ∨ a = .read addr ∨ a = .writeBack addr) → step s = .next t →
    t.snapshot = s.snapshot ∧ t.resp = s.resp ∧ t.busy = true ∧ t.done = s.done ∧ t.cfg = s.cfg

/-- R51, R82: only a completion or a reset changes a response register, and a completion changes them all at once with
BUSY <- 0 and DONE <- 1. -/
def Obligations.ResponseChangesOnlyAtCompletionOrReset : Prop :=
  ∀ s t : State, step s = .next t → t.resp ≠ s.resp →
    (∃ q, s.snapshot = some q ∧ t.snapshot = none ∧ t.busy = false ∧ t.done = true) ∨
      ∃ rest, s.agenda = .reset :: rest

/-- R36, R48, R51, R52: a step that changes BUSY, DONE or the snapshot is an accepted GO, a completion or a reset, and leaves
what that event leaves. The host's write and the reset input stand in the agenda (log 4). -/
def Obligations.OnlyGoCompletionAndResetChangeTheHandshake : Prop :=
  ∀ s t : State, step s = .next t → (t.busy ≠ s.busy ∨ t.done ≠ s.done ∨ t.snapshot ≠ s.snapshot) →
    (s.busy = false ∧ t.busy = true ∧ t.done = false ∧ t.snapshot = some s.req ∧ t.req = s.req ∧ t.resp = s.resp ∧
      ∃ (v : Value) (rest : List BusAct), v.getLsbD 0 = true ∧
        (s.agenda = .write (s.cfg.windowBase + 0x01) v :: rest ∨
          s.agenda = .writeBack (s.cfg.windowBase + 0x01) :: rest ∧ s.hostData = v)) ∨
    (s.snapshot.isSome = true ∧ t.busy = false ∧ t.done = true ∧ t.snapshot = none) ∨
    ((∃ rest, s.agenda = .reset :: rest) ∧ t.busy = false ∧ t.done = false ∧ t.snapshot = none ∧ t.resp.code = 0)

/-- R87, R130: a step changes a request register only at a host write or a reset, and no step changes a parameter. -/
def Obligations.RequestsAndParametersAreTheHosts : Prop :=
  ∀ s t : State, step s = .next t →
    t.cfg = s.cfg ∧
    (t.req ≠ s.req → ∃ addr v rest,
      s.agenda = .write addr v :: rest ∨ s.agenda = .writeBack addr :: rest ∨ s.agenda = .reset :: rest)

/-- R361: a pending transaction ends at the codec unit's next step, and a host that polls for DONE then goes on. -/
def Obligations.PendingTransactionsEnd : Prop :=
  ∀ s : State, s.inv = true → s.busy = true →
    (s.agenda = [] → ∃ t, step s = .next t ∧ t.busy = false ∧ t.done = true) ∧
    (∀ rest, s.agenda = .waitDone :: rest →
      ∃ t, Host.Core.run Sys2Proof.core 2 s = .next t ∧ t.busy = false ∧ t.done = true ∧ t.agenda = rest)

/-! ### What holds of every command -/

/-- R87 and the frame of all twelve commands: a completion writes the response registers, OUT_BUF, BUSY, DONE and the
snapshot, and nothing else. -/
def Obligations.CommandsNeverWriteTheRequest : Prop :=
  ∀ (i : Instr) (s t : State), exec i s = .next t →
    t.req.cmd = s.req.cmd ∧ t.req.inLen = s.req.inLen ∧ t.req.rdValid = s.req.rdValid ∧
      t.req.rdPresent = s.req.rdPresent ∧ (∀ k, t.req.rdValue.get k = s.req.rdValue.get k) ∧
      (∀ k, t.req.inBuf.read k = s.req.inBuf.read k) ∧
      t.cfg = s.cfg ∧ t.agenda = s.agenda ∧ t.hostData = s.hostData ∧
      t.busy = false ∧ t.done = true ∧ t.snapshot = none

/-- R304, R48: the response, its code included, is a function of the snapshot (and the parameters) alone: no earlier
response, status or request register, and no other state, can be seen in it. -/
def Obligations.SameSnapshotSameResponse : Prop :=
  ∀ (s t s' t' : State) (q : Request), s.cfg = s'.cfg → s.snapshot = some q → s'.snapshot = some q →
    codecMove s = .next t → codecMove s' = .next t' → t.resp = t'.resp

/-- R306: a completion with CODE ≠ OK, an illegal command's among them, leaves every other response register and every
OUT_BUF byte 0. -/
def Obligations.ErrorsLeaveNothingElse : Prop :=
  ∀ (s t : State) (q : Request), s.snapshot = some q → codecMove s = .next t → t.resp.code ≠ 0 →
    t.resp.fmt = 0 ∧ t.resp.rdValid = false ∧ t.resp.rdPresent = 0 ∧ (∀ k, t.resp.rdValue.get k = 0) ∧
      t.resp.outLen = 0 ∧ ∀ n, t.resp.outBuf.read n = 0

/-- R71, R74: no command reads an IN_BUF byte at or beyond IN_LEN. -/
def Obligations.BytesBeyondTheLengthAreNeverRead : Prop :=
  ∀ (i : Instr) (s : State) (q : Request) (m : Memory), s.snapshot = some q →
    (∀ k < q.inLen.toNat, m.read k = q.byte k) → exec i { s with snapshot := some { q with inBuf := m } } = exec i s

/-- R301: the status codes each command can end with. -/
def Obligations.CodesEachCommandRaises : Prop :=
  ∀ (i : Instr) (s t : State), exec i s = .next t →
    t.resp.code ∈
      match i with
      | .detect => [0#4, 1#4, 2#4]
      | .decodeAny => [0#4, 1#4, 2#4, 4#4]
      | .decodeF2 => [0#4, 3#4, 4#4]
      | .decodeF3 => [0#4, 3#4, 4#4]
      | .decodeF4 => [0#4, 3#4, 4#4]
      | .decodeF5 => [0#4, 3#4, 4#4]
      | .encodeF2 => [0#4, 5#4, 6#4]
      | .encodeF3 => [0#4, 5#4, 6#4]
      | .encodeF4 => [0#4, 5#4, 6#4]
      | .encodeF5 => [0#4, 5#4, 6#4]
      | .envWrap => [0#4, 4#4]
      | .envStrip => [0#4, 4#4]

/-- R307: what a successful command's rule does not write takes its default, and an absent slot holds 0. -/
def Obligations.UnwrittenResponsesTakeDefaults : Prop :=
  ∀ (i : Instr) (s t : State), exec i s = .next t → t.resp.code = 0 →
    (i ∉ [Instr.decodeAny, .decodeF2, .decodeF3, .decodeF4, .decodeF5] →
      t.resp.rdValid = false ∧ t.resp.rdPresent = 0 ∧ ∀ k, t.resp.rdValue.get k = 0) ∧
    (i ∉ [Instr.encodeF2, .encodeF3, .encodeF4, .encodeF5, .envWrap, .envStrip] → t.resp.outLen = 0) ∧
    (i ∈ [Instr.envWrap, .envStrip] → t.resp.fmt = 0) ∧
    (∀ k : Slot, t.resp.rdPresent.getLsbD k.num = false → t.resp.rdValue.get k = 0) ∧
    ∀ n, t.resp.outLen.toNat ≤ n → t.resp.outBuf.read n = 0

/-- R38: without a reading every ENCODE command ends with NilInput, and no other command reads VALID. -/
def Obligations.OnlyEncodesReadValid : Prop :=
  (∀ (i : Instr) (s : State) (q : Request), i ∈ [Instr.encodeF2, .encodeF3, .encodeF4, .encodeF5] →
    s.snapshot = some q → q.rdValid = false →
    exec i s =
      .next { s with resp := { Response.zero with code := 5 }, busy := false, done := true, snapshot := none }) ∧
  ∀ (i : Instr) (s : State) (q : Request) (b : Bool), i ∉ [Instr.encodeF2, .encodeF3, .encodeF4, .encodeF5] →
    s.snapshot = some q → exec i { s with snapshot := some { q with rdValid := b } } = exec i s

/-- R41: an encode reads only the slots its format has, and a decode leaves every other slot absent. -/
def Obligations.ForeignSlotsAreIgnored : Prop :=
  ∀ (enc dec : Instr) (slots : List Slot),
    (enc, dec, slots) ∈
      [(Instr.encodeF2, Instr.decodeF2, [Slot.temperature, .humidity, .pressure]),
       (.encodeF3, .decodeF3, [.temperature, .humidity, .pressure, .accelX, .accelY, .accelZ, .batteryVoltage]),
       (.encodeF4, .decodeF4, [.temperature, .humidity, .pressure, .coarseId]),
       (.encodeF5, .decodeF5, [.temperature, .humidity, .pressure, .accelX, .accelY, .accelZ, .batteryVoltage, .txPower,
         .movementCounter, .measurementSequence, .deviceId])] →
    (∀ (s : State) (q q' : Request), s.snapshot = some q → q.rdValid = q'.rdValid →
      (∀ k ∈ slots, q.slotIn k = q'.slotIn k) → exec enc { s with snapshot := some q' } = exec enc s) ∧
    (∀ (s t : State), exec dec s = .next t →
      ∀ k, k ∉ slots → t.resp.rdPresent.getLsbD k.num = false ∧ t.resp.rdValue.get k = 0)

/-! ### The commands -/

/-- R180: DETECT classifies by byte 0 alone and completes on every request. -/
def Obligations.DetectClassifiesByTheTag : Prop :=
  decode 0x10#8 = .ok .detect ∧ ∀ (s : State) (q : Request), s.snapshot = some q →
    (q.inLen = 0 → exec .detect s =
      .next { s with resp := { Response.zero with code := 1 }, busy := false, done := true, snapshot := none }) ∧
    (q.inLen ≠ 0 → q.byte 0 ∈ [0x02#8, 0x03#8, 0x04#8, 0x05#8] → exec .detect s =
      .next { s with resp := { Response.zero with fmt := q.byte 0 }, busy := false, done := true, snapshot := none }) ∧
    (q.inLen ≠ 0 → q.byte 0 ∉ [0x02#8, 0x03#8, 0x04#8, 0x05#8] → exec .detect s =
      .next { s with resp := { Response.zero with code := 2 }, busy := false, done := true, snapshot := none })

/-- R190: DECODE.F5 checks the length and then the tag, and of a 24-byte frame with tag 5 reports every field in exact
physical units, absent at its sentinel. -/
def Obligations.DecodeF5ReportsEveryField : Prop :=
  decode 0x25#8 = .ok .decodeF5 ∧ ∀ (s : State) (q : Request), s.snapshot = some q →
    (q.inLen.toNat ≠ 24 → exec .decodeF5 s =
      .next { s with resp := { Response.zero with code := 4 }, busy := false, done := true, snapshot := none }) ∧
    (q.inLen.toNat = 24 → q.byte 0 ≠ 0x05#8 → exec .decodeF5 s =
      .next { s with resp := { Response.zero with code := 3 }, busy := false, done := true, snapshot := none }) ∧
    (q.inLen.toNat = 24 → q.byte 0 = 0x05#8 →
      ∃ r, exec .decodeF5 s = .next { s with resp := r, busy := false, done := true, snapshot := none } ∧
        r.IsReading 0x05#8 ∧
        r.HasSlot .temperature (unlessSentinel (sx16 (memRead q.inBuf 1 2)) (-32768) fun x => x / 200) ∧
        r.HasSlot .humidity (unlessSentinel (memRead q.inBuf 3 2) 65535 fun x => x / 400) ∧
        r.HasSlot .pressure (unlessSentinel (memRead q.inBuf 5 2) 65535 fun x => x + 50000) ∧
        r.HasSlot .accelX (unlessSentinel (sx16 (memRead q.inBuf 7 2)) (-32768) fun x => x / 1000) ∧
        r.HasSlot .accelY (unlessSentinel (sx16 (memRead q.inBuf 9 2)) (-32768) fun x => x / 1000) ∧
        r.HasSlot .accelZ (unlessSentinel (sx16 (memRead q.inBuf 11 2)) (-32768) fun x => x / 1000) ∧
        r.HasSlot .batteryVoltage (unlessSentinel ((memRead q.inBuf 13 2 >>> 5 : ℕ) : ℤ) 2047 fun x => x + 1600) ∧
        r.HasSlot .txPower (unlessSentinel ((memRead q.inBuf 13 2 &&& 0x1F : ℕ) : ℤ) 31 fun x => 2 * x - 40) ∧
        r.HasSlot .movementCounter (unlessSentinel (q.byte 15).toNat 255 fun x => x) ∧
        r.HasSlot .measurementSequence (unlessSentinel (memRead q.inBuf 16 2) 65535 fun x => x) ∧
        r.HasSlot .deviceId (unlessSentinel (memRead q.inBuf 18 6) (2 ^ 48 - 1) fun x => x) ∧
        r.HasSlot .coarseId none)

/-- R230, R143, R144, R232: DECODE.F3 checks the length and then the tag, and of a 14-byte frame with tag 3 reports every
field; the accelerations are never absent. -/
def Obligations.DecodeF3ReportsEveryField : Prop :=
  decode 0x23#8 = .ok .decodeF3 ∧ ∀ (s : State) (q : Request), s.snapshot = some q →
    (q.inLen.toNat ≠ 14 → exec .decodeF3 s =
      .next { s with resp := { Response.zero with code := 4 }, busy := false, done := true, snapshot := none }) ∧
    (q.inLen.toNat = 14 → q.byte 0 ≠ 0x03#8 → exec .decodeF3 s =
      .next { s with resp := { Response.zero with code := 3 }, busy := false, done := true, snapshot := none }) ∧
    (q.inLen.toNat = 14 → q.byte 0 = 0x03#8 →
      ∃ r, exec .decodeF3 s = .next { s with resp := r, busy := false, done := true, snapshot := none } ∧
        r.IsReading 0x03#8 ∧
        r.HasSlot .humidity (unlessSentinel (q.byte 1).toNat 0 fun x => x / 2) ∧
        r.HasSlot .temperature (smagDecodeSpec (q.byte 2) (q.byte 3) true) ∧
        r.HasSlot .pressure (unlessSentinel (memRead q.inBuf 4 2) 0 fun x => x + 50000) ∧
        r.HasSlot .accelX (some ((sx16 (memRead q.inBuf 6 2) : ℚ) / 1000)) ∧
        r.HasSlot .accelY (some ((sx16 (memRead q.inBuf 8 2) : ℚ) / 1000)) ∧
        r.HasSlot .accelZ (some ((sx16 (memRead q.inBuf 10 2) : ℚ) / 1000)) ∧
        r.HasSlot .batteryVoltage (unlessSentinel (memRead q.inBuf 12 2) 0 fun x => x) ∧
        ∀ k ∈ [Slot.txPower, .movementCounter, .measurementSequence, .deviceId, .coarseId], r.HasSlot k none)

/-- R260, R261, R262, R263: DECODE.F2 and DECODE.F4 check the length and then the tag, and report their fields; the
temperature takes byte 3 as its fraction where F24_DECODE_FRACTION says so, and the identifier has the form F4_ID_FORM
says. -/
def Obligations.DecodeF2AndF4ReportEveryField : Prop :=
  decode 0x22#8 = .ok .decodeF2 ∧ decode 0x24#8 = .ok .decodeF4 ∧
    ∀ (i : Instr) (tag : Byte) (len : Nat), (i, tag, len) ∈ [(Instr.decodeF2, 0x02#8, 6), (.decodeF4, 0x04#8, 7)] →
    ∀ (s : State) (q : Request), s.snapshot = some q →
      (q.inLen.toNat ≠ len → exec i s =
        .next { s with resp := { Response.zero with code := 4 }, busy := false, done := true, snapshot := none }) ∧
      (q.inLen.toNat = len → q.byte 0 ≠ tag → exec i s =
        .next { s with resp := { Response.zero with code := 3 }, busy := false, done := true, snapshot := none }) ∧
      (q.inLen.toNat = len → q.byte 0 = tag →
        ∃ r, exec i s = .next { s with resp := r, busy := false, done := true, snapshot := none } ∧
          r.IsReading tag ∧
          r.HasSlot .humidity (unlessSentinel (q.byte 1).toNat 0 fun x => x / 2) ∧
          r.HasSlot .temperature (smagDecodeSpec (q.byte 2) (q.byte 3) s.cfg.f24DecodeFraction) ∧
          r.HasSlot .pressure (unlessSentinel (memRead q.inBuf 4 2) 0 fun x => x + 50000) ∧
          (i = .decodeF2 → r.HasSlot .coarseId none) ∧
          (i = .decodeF4 → r.HasSlot .coarseId (unlessSentinel (((q.byte 6).toNat >>> 2 : ℕ) : ℤ) 0 fun x =>
            match s.cfg.f4IdForm with
            | .shifted => x
            | .inPlace => 4 * x)) ∧
          ∀ k ∈ [Slot.accelX, .accelY, .accelZ, .batteryVoltage, .txPower, .movementCounter, .measurementSequence, .deviceId],
            r.HasSlot k none)

/-- R290: DECODE.ANY runs the detector's checks and then exactly the codec the tag names. -/
def Obligations.DecodeAnyDispatchesByTag : Prop :=
  decode 0x11#8 = .ok .decodeAny ∧ ∀ (s : State) (q : Request), s.snapshot = some q →
    (q.inLen = 0 → exec .decodeAny s =
      .next { s with resp := { Response.zero with code := 1 }, busy := false, done := true, snapshot := none }) ∧
    (q.inLen ≠ 0 → q.byte 0 = 0x02#8 → exec .decodeAny s = exec .decodeF2 s) ∧
    (q.inLen ≠ 0 → q.byte 0 = 0x03#8 → exec .decodeAny s = exec .decodeF3 s) ∧
    (q.inLen ≠ 0 → q.byte 0 = 0x04#8 → exec .decodeAny s = exec .decodeF4 s) ∧
    (q.inLen ≠ 0 → q.byte 0 = 0x05#8 → exec .decodeAny s = exec .decodeF5 s) ∧
    (q.inLen ≠ 0 → q.byte 0 ∉ [0x02#8, 0x03#8, 0x04#8, 0x05#8] → exec .decodeAny s =
      .next { s with resp := { Response.zero with code := 2 }, busy := false, done := true, snapshot := none })

/-- R290, R115: on a frame whose length is its tag's, DECODE.ANY completes with OK and names the tag. -/
def Obligations.DecodeAnyCompletesOnFrames : Prop :=
  ∀ (s : State) (q : Request) (tag : Byte) (len : Nat), s.snapshot = some q →
    (tag, len) ∈ [(0x02#8, 6), (0x03#8, 14), (0x04#8, 7), (0x05#8, 24)] → q.byte 0 = tag → q.inLen.toNat = len →
    ∃ r, exec .decodeAny s = .next { s with resp := r, busy := false, done := true, snapshot := none } ∧ r.IsReading tag

/-- R200: ENCODE.F5 ends with NilInput without a reading and with EncodeDomain when a present slot is out of range, and
otherwise writes the 24 bytes of the frame, each field truncated toward zero in exact arithmetic. -/
def Obligations.EncodeF5WritesTheFrame : Prop :=
  decode 0x35#8 = .ok .encodeF5 ∧ ∀ (s : State) (q : Request), s.snapshot = some q →
    (q.rdValid = false → exec .encodeF5 s =
      .next { s with resp := { Response.zero with code := 5 }, busy := false, done := true, snapshot := none }) ∧
    (q.rdValid = true → ¬ fitsF5 q → exec .encodeF5 s =
      .next { s with resp := { Response.zero with code := 6 }, busy := false, done := true, snapshot := none }) ∧
    (q.rdValid = true → fitsF5 q →
      ∃ r, exec .encodeF5 s = .next { s with resp := r, busy := false, done := true, snapshot := none } ∧
        r.IsFrame 0x05#8 24 ∧ r.outBuf.read 0 = 0x05#8 ∧
        (memRead r.outBuf 1 2 : ℤ) = q.rawOr .temperature (-32768) (fun v => trunc (200 * v)) % 65536 ∧
        (memRead r.outBuf 3 2 : ℤ) = q.rawOr .humidity 65535 (fun v => trunc (400 * v)) ∧
        (memRead r.outBuf 5 2 : ℤ) = q.rawOr .pressure 65535 (fun v => trunc (v - 50000)) ∧
        (memRead r.outBuf 7 2 : ℤ) = q.rawOr .accelX (-32768) (fun v => trunc (1000 * v)) % 65536 ∧
        (memRead r.outBuf 9 2 : ℤ) = q.rawOr .accelY (-32768) (fun v => trunc (1000 * v)) % 65536 ∧
        (memRead r.outBuf 11 2 : ℤ) = q.rawOr .accelZ (-32768) (fun v => trunc (1000 * v)) % 65536 ∧
        (memRead r.outBuf 13 2 : ℤ) =
          (q.rawOr .batteryVoltage 0x7FF (fun v => trunc (v - 1600)) % 2048) * 32
            + q.rawOr .txPower 0x1F (fun v => trunc ((v + 40) / 2)) % 32 ∧
        ((r.outBuf.read 15).toNat : ℤ) = (q.slotIn .movementCounter).getD 255 ∧
        (memRead r.outBuf 16 2 : ℤ) = (q.slotIn .measurementSequence).getD 65535 ∧
        (memRead r.outBuf 18 6 : ℤ) = (q.slotIn .deviceId).getD (2 ^ 48 - 1))

/-- R240, R242, R145, R147: ENCODE.F3 ends with NilInput without a reading and with EncodeDomain when a present slot is out
of range or an acceleration is absent, and otherwise writes the 14 bytes of the frame. -/
def Obligations.EncodeF3WritesTheFrame : Prop :=
  decode 0x33#8 = .ok .encodeF3 ∧ ∀ (s : State) (q : Request), s.snapshot = some q →
    (q.rdValid = false → exec .encodeF3 s =
      .next { s with resp := { Response.zero with code := 5 }, busy := false, done := true, snapshot := none }) ∧
    (q.rdValid = true → ¬ fitsF3 q → exec .encodeF3 s =
      .next { s with resp := { Response.zero with code := 6 }, busy := false, done := true, snapshot := none }) ∧
    (q.rdValid = true → fitsF3 q →
      ∃ r, exec .encodeF3 s = .next { s with resp := r, busy := false, done := true, snapshot := none } ∧
        r.IsFrame 0x03#8 14 ∧ r.outBuf.read 0 = 0x03#8 ∧
        ((r.outBuf.read 1).toNat : ℤ) = q.rawOr .humidity 0 (fun v => trunc (2 * v)) ∧
        temperatureBytes q (smagFracSpec s.cfg.signSource) (r.outBuf.read 2) (r.outBuf.read 3) ∧
        (memRead r.outBuf 4 2 : ℤ) = q.rawOr .pressure 0 (fun v => trunc (v - 50000)) ∧
        (memRead r.outBuf 6 2 : ℤ) = q.rawOr .accelX 0 (fun v => trunc (1000 * v)) % 65536 ∧
        (memRead r.outBuf 8 2 : ℤ) = q.rawOr .accelY 0 (fun v => trunc (1000 * v)) % 65536 ∧
        (memRead r.outBuf 10 2 : ℤ) = q.rawOr .accelZ 0 (fun v => trunc (1000 * v)) % 65536 ∧
        (memRead r.outBuf 12 2 : ℤ) = q.rawOr .batteryVoltage 0 (fun v => trunc v))

/-- R270, R272, R146, R147: ENCODE.F2 ends with NilInput without a reading and with EncodeDomain when a present slot is out
of range, and otherwise writes the 6 bytes of the frame, the temperature in whole degrees. -/
def Obligations.EncodeF2WritesTheFrame : Prop :=
  decode 0x32#8 = .ok .encodeF2 ∧ ∀ (s : State) (q : Request), s.snapshot = some q →
    (q.rdValid = false → exec .encodeF2 s =
      .next { s with resp := { Response.zero with code := 5 }, busy := false, done := true, snapshot := none }) ∧
    (q.rdValid = true → ¬ fitsF2 q → exec .encodeF2 s =
      .next { s with resp := { Response.zero with code := 6 }, busy := false, done := true, snapshot := none }) ∧
    (q.rdValid = true → fitsF2 q →
      ∃ r, exec .encodeF2 s = .next { s with resp := r, busy := false, done := true, snapshot := none } ∧
        r.IsFrame 0x02#8 6 ∧ r.outBuf.read 0 = 0x02#8 ∧
        ((r.outBuf.read 1).toNat : ℤ) = q.rawOr .humidity 0 (fun v => trunc (2 * v)) ∧
        temperatureBytes q (smagWholeSpec s.cfg.signSource) (r.outBuf.read 2) (r.outBuf.read 3) ∧
        (memRead r.outBuf 4 2 : ℤ) = q.rawOr .pressure 0 (fun v => trunc (v - 50000)))

/-- R271, R272, R262: ENCODE.F4 does the same with its tag, and its byte 6 holds the identifier in the form F4_ID_FORM says,
bits [1:0] written 0. -/
def Obligations.EncodeF4WritesTheFrame : Prop :=
  decode 0x34#8 = .ok .encodeF4 ∧ ∀ (s : State) (q : Request), s.snapshot = some q →
    (q.rdValid = false → exec .encodeF4 s =
      .next { s with resp := { Response.zero with code := 5 }, busy := false, done := true, snapshot := none }) ∧
    (q.rdValid = true → ¬ fitsF4 s.cfg q → exec .encodeF4 s =
      .next { s with resp := { Response.zero with code := 6 }, busy := false, done := true, snapshot := none }) ∧
    (q.rdValid = true → fitsF4 s.cfg q →
      ∃ r, exec .encodeF4 s = .next { s with resp := r, busy := false, done := true, snapshot := none } ∧
        r.IsFrame 0x04#8 7 ∧ r.outBuf.read 0 = 0x04#8 ∧
        ((r.outBuf.read 1).toNat : ℤ) = q.rawOr .humidity 0 (fun v => trunc (2 * v)) ∧
        temperatureBytes q (smagWholeSpec s.cfg.signSource) (r.outBuf.read 2) (r.outBuf.read 3) ∧
        (memRead r.outBuf 4 2 : ℤ) = q.rawOr .pressure 0 (fun v => trunc (v - 50000)) ∧
        ((r.outBuf.read 6).toNat : ℤ) =
          match s.cfg.f4IdForm with
          | .shifted => 4 * (q.slotIn .coarseId).getD 0
          | .inPlace => (q.slotIn .coarseId).getD 0 - (q.slotIn .coarseId).getD 0 % 4)

/-- R210, R211: ENV.WRAP of 24 bytes puts the two prefix bytes before them, unchanged and unchecked; any other length is
InvalidLength. -/
def Obligations.EnvWrapPrependsThePrefix : Prop :=
  decode 0x40#8 = .ok .envWrap ∧ ∀ (s : State) (q : Request), s.snapshot = some q →
    (q.inLen.toNat ≠ 24 → exec .envWrap s =
      .next { s with resp := { Response.zero with code := 4 }, busy := false, done := true, snapshot := none }) ∧
    (q.inLen.toNat = 24 →
      ∃ r, exec .envWrap s = .next { s with resp := r, busy := false, done := true, snapshot := none } ∧
        r.IsFrame 0 26 ∧ r.outBuf.read 0 = s.cfg.envPrefix0 ∧ r.outBuf.read 1 = s.cfg.envPrefix1 ∧
        ∀ k < 24, r.outBuf.read (2 + k) = q.byte k)

/-- R213, R214: ENV.STRIP of 26 bytes gives bytes 2 to 25, whatever bytes 0 and 1 are; any other length is InvalidLength. -/
def Obligations.EnvStripRemovesThePrefix : Prop :=
  decode 0x41#8 = .ok .envStrip ∧ ∀ (s : State) (q : Request), s.snapshot = some q →
    (q.inLen.toNat ≠ 26 → exec .envStrip s =
      .next { s with resp := { Response.zero with code := 4 }, busy := false, done := true, snapshot := none }) ∧
    (q.inLen.toNat = 26 →
      ∃ r, exec .envStrip s = .next { s with resp := r, busy := false, done := true, snapshot := none } ∧
        r.IsFrame 0 24 ∧ ∀ k < 24, r.outBuf.read k = q.byte (2 + k))

/-! ### The laws of the codecs -/

/-- R12: MemRead is the big-endian sum of its bytes. -/
def Obligations.MemReadIsBigEndian : Prop :=
  ∀ (m : Memory) (a n : Nat), memRead m a n = ∑ k ∈ Finset.range n, (m.read (a + k)).toNat * 256 ^ (n - 1 - k)

/-- R139, R151: for every linear field and every register value, the integer quantizer is the exact rational quotient
truncated toward zero. -/
def Obligations.QuantizersTruncateTheExactQuotient : Prop :=
  ∀ f ∈ linearFields, ∀ v : ℤ,
    f.quantize v =
      trunc (((v : ℚ) / f.slot.unit - (f.offset : ℚ) / f.slot.unit) / ((f.scale : ℚ) / f.slot.unit))

/-- R152 for the linear fields, through the bytes an encode writes and a decode of them: a present value whose raw is in range
is written; where the raw is the field's sentinel the field decodes ABSENT (R140, R134), and otherwise it decodes present,
between the offset and the value, less than one step away. Battery and tx power are the two parts of one word (R142). -/
def Obligations.LinearQuantizationErrorIsUnderAStep : Prop :=
  ∀ f ∈ linearFields, ∀ (q : Request) (v : ℤ), q.slotIn f.slot = some v → f.lo ≤ f.quantize v → f.quantize v ≤ f.hi →
    ∃ bs, (if f.masked then powerPart q else f.encode q) = some bs ∧ bs.length = f.bytes ∧
      ∀ m : Memory, (∀ k, ∀ h : k < bs.length, m.read (f.base + k) = bs[k]) →
        (f.sentinel = some (f.quantize v) → f.decode m = none) ∧
        (f.sentinel ≠ some (f.quantize v) → ∃ v', f.decode m = some v' ∧ |v - v'| < f.scale ∧
          (f.offset ≤ v → f.offset ≤ v' ∧ v' ≤ v) ∧ (v ≤ f.offset → v ≤ v' ∧ v' ≤ f.offset))

/-- R152 for the temperatures of Formats 2, 3 and 4, under SIGN_SOURCE = VALUE: a value that comes back present comes back
within 0.005 °C with a fraction, and within 1 °C in whole degrees. -/
def Obligations.TemperatureErrorIsBounded : Prop :=
  ∀ (v v' : ℤ) (b2 b3 : Byte) (frac : Bool),
    (smagEncodeFrac .value v = some [b2, b3] → smagDecode b2 b3 true = some v' → |v - v'| ≤ 5000) ∧
    (smagEncodeWhole .value v = some [b2, b3] → smagDecode b2 b3 frac = some v' → |v - v'| < 1000000)

/-- R153, R203: decoding a 24-byte tag-5 frame and encoding the reading it gives writes back every byte of the frame. -/
def Obligations.FormatFiveRoundTripsEveryByte : Prop :=
  ∀ (s t s' : State) (q q' : Request), s.snapshot = some q → q.inLen.toNat = 24 → q.byte 0 = 0x05#8 →
    exec .decodeF5 s = .next t → s'.snapshot = some q' → q'.rdValid = t.resp.rdValid →
    q'.rdPresent = t.resp.rdPresent → q'.rdValue = t.resp.rdValue →
    ∃ r, exec .encodeF5 s' = .next { s' with resp := r, busy := false, done := true, snapshot := none } ∧
      r.IsFrame 0x05#8 24 ∧ ∀ k < 24, r.outBuf.read k = q.byte k

/-- R210, R213, R212: stripping what a wrap wrote gives the 24 bytes that were wrapped. -/
def Obligations.StripUndoesWrap : Prop :=
  ∀ (s t s' : State) (q q' : Request), s.snapshot = some q → q.inLen.toNat = 24 → exec .envWrap s = .next t →
    s'.snapshot = some q' → q'.inLen = t.resp.outLen → q'.inBuf = t.resp.outBuf →
    ∃ r, exec .envStrip s' = .next { s' with resp := r, busy := false, done := true, snapshot := none } ∧
      r.IsFrame 0 24 ∧ ∀ k < 24, r.outBuf.read k = q.byte k

/-! ### The host script -/

/-- R105, a mnemonic: from an idle block its accesses write CMD, start the command, wait, and leave its response. -/
def Obligations.MnemonicRunsItsCommand : Prop :=
  ∀ (s : State) (i : Instr) (rest : List BusAct), s.inv = true → s.busy = false →
    s.agenda = ScriptStmt.expand s.cfg.windowBase (.run i) ++ rest →
    ∃ t u, Host.Core.run Sys2Proof.core 4 s = .next t ∧
      exec i { s with
        req := { s.req with cmd := encode i }, snapshot := some { s.req with cmd := encode i },
        busy := true, done := false } = .next u ∧
      t.resp = u.resp ∧ t.req = { s.req with cmd := encode i } ∧ t.busy = false ∧ t.done = true ∧ t.agenda = rest

/-- R105, WRIN: IN_LEN is the byte count, IN_BUF holds the bytes, and every other byte and register stays. -/
def Obligations.WrinLoadsTheInput : Prop :=
  ∀ (s : State) (bytes : List Byte) (rest : List BusAct), s.inv = true → bytes.length ≤ s.cfg.inCap →
    s.agenda = ScriptStmt.expand s.cfg.windowBase (.wrin bytes) ++ rest →
    ∃ t, Host.Core.run Sys2Proof.core (bytes.length + 1) s = .next t ∧ t.agenda = rest ∧
      t.req.inLen.toNat = bytes.length ∧ (∀ i, ∀ h : i < bytes.length, t.req.inBuf.read i = bytes[i]) ∧
      (∀ i, bytes.length ≤ i → t.req.inBuf.read i = s.req.inBuf.read i) ∧
      t.req.cmd = s.req.cmd ∧ t.req.rdValid = s.req.rdValid ∧ t.req.rdPresent = s.req.rdPresent ∧
      t.req.rdValue = s.req.rdValue ∧ t.resp = s.resp ∧ t.snapshot = s.snapshot ∧ t.busy = s.busy ∧ t.done = s.done

/-- R105, MOVE: IN_BUF[i] <- OUT_BUF[i] for i < OUT_LEN and IN_LEN <- OUT_LEN; bytes above, every other request register, the
response and the handshake stay. -/
def Obligations.MoveChainsOutputToInput : Prop :=
  ∀ (s : State) (rest : List BusAct), s.inv = true → s.agenda = .move :: rest →
    ∃ t, Host.Core.run Sys2Proof.core (2 * s.resp.outLen.toNat + 2) s = .next t ∧ t.agenda = rest ∧
      t.req.inLen = s.resp.outLen ∧ (∀ i < s.resp.outLen.toNat, t.req.inBuf.read i = s.resp.outBuf.read i) ∧
      (∀ i, s.resp.outLen.toNat ≤ i → t.req.inBuf.read i = s.req.inBuf.read i) ∧
      t.req.cmd = s.req.cmd ∧ t.req.rdValid = s.req.rdValid ∧ t.req.rdPresent = s.req.rdPresent ∧
      t.req.rdValue = s.req.rdValue ∧ t.resp = s.resp ∧ t.snapshot = s.snapshot ∧ t.busy = s.busy ∧ t.done = s.done

/-- R106: DECODE.ENV and ENCODE.ENV are their first command and a tail. Where the host stands before that tail, a first
command that did not end in OK leaves the acts after the whole pseudo-instruction, and one that did leaves MOVE and the second
command; the check reads STATUS and changes nothing else. CHECK runs its one command. The acts are the model's form of the
host (log 4, log 12). -/
def Obligations.PseudoInstructionsStopAtAnError : Prop :=
  (∀ (p : ScriptStmt) (first second : Instr),
    (p, first, second) ∈
      [(ScriptStmt.decodeEnv, Instr.envStrip, Instr.decodeF5), (ScriptStmt.encodeEnv, Instr.encodeF5, Instr.envWrap)] →
    ∀ (base : Nat) (tail : List BusAct), tail = (p.expand base).drop (runActs base first).length →
      p.expand base = runActs base first ++ tail ∧
      ∀ (s : State) (rest : List BusAct), s.cfg.windowBase = base → codeReserved s.resp.code = false →
        s.agenda = tail ++ rest →
        (s.resp.code ≠ 0 → step s = .next { s with agenda := rest, hostData := windowRead 0x02 s }) ∧
        (s.resp.code = 0 →
          step s =
            .next { s with agenda := .move :: (runActs base second ++ rest), hostData := windowRead 0x02 s })) ∧
  ∀ (base : Nat) (i : Instr), (ScriptStmt.check i).expand base = runActs base i

/-! ### Several instances -/

/-- R330: a step of one instance changes no other instance, and what it does depends on that instance alone. -/
def Obligations.InstancesAreIndependent : Prop :=
  ∀ (k : Nat) (before other after : Bank), Bank.step k before = .next after →
    after.length = before.length ∧ (∀ j, j ≠ k → after[j]? = before[j]?) ∧
    (other[k]? = before[k]? → ∃ after', Bank.step k other = .next after' ∧ after'[k]? = after[k]?)
end

