-- ==== Sys2Proof/Laws/Memory.lean ====
section
/-! SUPPORT. The laws of the byte buffers: read after write, the canonical form, the bytes of a list, and MemRead. -/

namespace Sys2Proof.Machine

@[simp] theorem Memory.read_nil (k : Nat) : Memory.read [] k = 0#8 := rfl

@[simp] theorem Memory.read_cons (a : Nat) (b : Byte) (m : Memory) (k : Nat) :
    Memory.read ((a, b) :: m) k = if a = k then b else m.read k := rfl

/-- A byte below every listed index reads as unlisted. -/
theorem Memory.read_of_wfFrom {m : Memory} {lo k : Nat} (h : m.wfFrom lo = true) (hk : k < lo) : m.read k = 0#8 := by
  induction m generalizing lo with
  | nil => rfl
  | cons c m ih =>
    obtain ⟨a, b⟩ := c
    simp only [Memory.wfFrom, Bool.and_eq_true, decide_eq_true_eq] at h
    rw [Memory.read_cons, if_neg (by omega)]
    exact ih h.2 (by omega)

/-- A write leaves every other byte as it was, whatever the list. -/
theorem Memory.read_write_ne (m : Memory) {k j : Nat} (v : Byte) (h : j ≠ k) : (m.write k v).read j = m.read j := by
  induction m with
  | nil =>
    unfold Memory.write
    split
    · rfl
    · simp [Ne.symm h]
  | cons c m ih =>
    obtain ⟨a, b⟩ := c
    unfold Memory.write
    split_ifs with h1 h2 h3 h4
    · rfl
    · simp [Ne.symm h]
    · subst h3
      simp [Ne.symm h]
    · subst h3
      simp [Ne.symm h]
    · simp [ih]

theorem Memory.read_write_same {m : Memory} {lo : Nat} (hm : m.wfFrom lo = true) (k : Nat) (v : Byte) :
    (m.write k v).read k = v := by
  induction m generalizing lo with
  | nil =>
    unfold Memory.write
    split
    · next h => exact h.symm
    · simp
  | cons c m ih =>
    obtain ⟨a, b⟩ := c
    simp only [Memory.wfFrom, Bool.and_eq_true, decide_eq_true_eq] at hm
    unfold Memory.write
    split_ifs with h1 h2 h3 h4
    · rw [h2, Memory.read_cons, if_neg (by omega)]
      exact Memory.read_of_wfFrom hm.2 (by omega)
    · simp
    · subst h3
      rw [h4]
      exact Memory.read_of_wfFrom hm.2 (by omega)
    · simp
    · rw [Memory.read_cons, if_neg (by omega)]
      exact ih hm.2

/-- Read after write on a canonical buffer. -/
theorem Memory.read_write {m : Memory} (hm : m.wf = true) (k j : Nat) (v : Byte) :
    (m.write k v).read j = if j = k then v else m.read j := by
  split
  · next h => rw [h]; exact Memory.read_write_same hm k v
  · next h => exact Memory.read_write_ne m v h

theorem Memory.wfFrom_mono {m : Memory} {lo lo' : Nat} (h : m.wfFrom lo = true) (hl : lo' ≤ lo) : m.wfFrom lo' = true := by
  cases m with
  | nil => rfl
  | cons c m =>
    simp only [Memory.wfFrom, Bool.and_eq_true, decide_eq_true_eq] at h ⊢
    exact ⟨⟨by omega, h.1.2⟩, h.2⟩

theorem Memory.write_wfFrom {m : Memory} {lo : Nat} (hm : m.wfFrom lo = true) {k : Nat} (v : Byte) (hk : lo ≤ k) :
    (m.write k v).wfFrom lo = true := by
  induction m generalizing lo with
  | nil =>
    unfold Memory.write
    split
    · rfl
    · next h => simp [Memory.wfFrom, hk, h]
  | cons c m ih =>
    obtain ⟨a, b⟩ := c
    have hm' := hm
    simp only [Memory.wfFrom, Bool.and_eq_true, decide_eq_true_eq] at hm'
    unfold Memory.write
    split_ifs with h1 h2 h3 h4
    · exact hm
    · simp only [Memory.wfFrom, Bool.and_eq_true, decide_eq_true_eq]
      exact ⟨⟨hk, h2⟩, ⟨by omega, hm'.1.2⟩, hm'.2⟩
    · exact Memory.wfFrom_mono hm'.2 (by omega)
    · subst h3
      simp only [Memory.wfFrom, Bool.and_eq_true, decide_eq_true_eq]
      exact ⟨⟨hk, h4⟩, hm'.2⟩
    · simp only [Memory.wfFrom, Bool.and_eq_true, decide_eq_true_eq]
      exact ⟨hm'.1, ih hm'.2 (by omega)⟩

/-- A write keeps the canonical form. -/
theorem Memory.write_wf {m : Memory} (hm : m.wf = true) (k : Nat) (v : Byte) : (m.write k v).wf = true :=
  Memory.write_wfFrom hm v (Nat.zero_le k)

/-- A write inside a window keeps the buffer inside it. -/
theorem Memory.write_below {m : Memory} {n k : Nat} (hm : m.below n = true) (v : Byte) (hk : k < n) :
    (m.write k v).below n = true := by
  induction m with
  | nil =>
    unfold Memory.write
    split <;> simp [Memory.below, hk]
  | cons c m ih =>
    obtain ⟨a, b⟩ := c
    simp only [Memory.below, List.all_cons, Bool.and_eq_true, decide_eq_true_eq] at hm ih
    unfold Memory.write
    split_ifs <;> simp only [Memory.below, List.all_cons, Bool.and_eq_true, decide_eq_true_eq]
    · exact hm
    · exact ⟨hk, hm⟩
    · exact hm.2
    · exact ⟨hk, hm.2⟩
    · exact ⟨hm.1, ih hm.2⟩

theorem Memory.below_mono {m : Memory} {n n' : Nat} (h : m.below n = true) (hn : n ≤ n') : m.below n' = true := by
  simp only [Memory.below, List.all_eq_true, decide_eq_true_eq] at h ⊢
  exact fun c hc => lt_of_lt_of_le (h c hc) hn

theorem Memory.read_of_below {m : Memory} {n k : Nat} (h : m.below n = true) (hk : n ≤ k) : m.read k = 0#8 := by
  induction m with
  | nil => rfl
  | cons c m ih =>
    obtain ⟨a, b⟩ := c
    simp only [Memory.below, List.all_cons, Bool.and_eq_true, decide_eq_true_eq] at h ih
    rw [Memory.read_cons, if_neg (by omega)]
    exact ih h.2

/-! ### The bytes of a list -/

theorem Memory.ofBytesFrom_wfFrom (bs : List Byte) (k : Nat) : (Memory.ofBytesFrom k bs).wfFrom k = true := by
  induction bs generalizing k with
  | nil => rfl
  | cons b bs ih =>
    unfold Memory.ofBytesFrom
    split
    · exact Memory.wfFrom_mono (ih (k + 1)) (Nat.le_succ k)
    · next h => simp [Memory.wfFrom, h, ih (k + 1)]

/-- Writing a list of bytes gives a canonical buffer. -/
theorem Memory.ofBytes_wf (bs : List Byte) : (Memory.ofBytes bs).wf = true := Memory.ofBytesFrom_wfFrom bs 0

theorem Memory.ofBytesFrom_below (bs : List Byte) (k : Nat) : (Memory.ofBytesFrom k bs).below (k + bs.length) = true := by
  induction bs generalizing k with
  | nil => rfl
  | cons b bs ih =>
    have h := ih (k + 1)
    rw [show k + 1 + bs.length = k + (b :: bs).length by simp; omega] at h
    unfold Memory.ofBytesFrom
    split
    · exact h
    · simp only [Memory.below, List.all_cons, Bool.and_eq_true, decide_eq_true_eq]
      exact ⟨by simp, h⟩

theorem Memory.ofBytes_below (bs : List Byte) : (Memory.ofBytes bs).below bs.length = true := by
  simpa [Memory.ofBytes] using Memory.ofBytesFrom_below bs 0

theorem Memory.read_ofBytesFrom (bs : List Byte) (k j : Nat) :
    (Memory.ofBytesFrom k bs).read (k + j) = bs.getD j 0#8 := by
  induction bs generalizing k j with
  | nil => simp [Memory.ofBytesFrom]
  | cons b bs ih =>
    unfold Memory.ofBytesFrom
    cases j with
    | zero =>
      split
      · next h =>
        rw [Memory.read_of_wfFrom (Memory.ofBytesFrom_wfFrom bs (k + 1)) (by omega), h]
        rfl
      · simp
    | succ j =>
      have h := ih (k + 1) j
      rw [show k + 1 + j = k + (j + 1) by omega] at h
      split
      · simpa using h
      · rw [Memory.read_cons, if_neg (by omega)]
        simpa using h

/-- Byte `k` of a written list is its element `k`, and 0 beyond it. -/
@[simp] theorem Memory.read_ofBytes (bs : List Byte) (k : Nat) : (Memory.ofBytes bs).read k = bs.getD k 0#8 := by
  simpa [Memory.ofBytes] using Memory.read_ofBytesFrom bs 0 k

theorem Memory.ext_from {m m' : Memory} {lo : Nat} (hm : m.wfFrom lo = true) (hm' : m'.wfFrom lo = true)
    (h : ∀ k, m.read k = m'.read k) : m = m' := by
  induction m generalizing m' lo with
  | nil =>
    cases m' with
    | nil => rfl
    | cons c m' =>
      obtain ⟨a, b⟩ := c
      simp only [Memory.wfFrom, Bool.and_eq_true, decide_eq_true_eq] at hm'
      have h1 := h a
      rw [Memory.read_cons, if_pos rfl] at h1
      exact absurd h1.symm hm'.1.2
  | cons c m ih =>
    obtain ⟨a, b⟩ := c
    simp only [Memory.wfFrom, Bool.and_eq_true, decide_eq_true_eq] at hm
    cases m' with
    | nil =>
      have h1 := h a
      rw [Memory.read_cons, if_pos rfl] at h1
      exact absurd h1 hm.1.2
    | cons c' m' =>
      obtain ⟨a', b'⟩ := c'
      simp only [Memory.wfFrom, Bool.and_eq_true, decide_eq_true_eq] at hm'
      have haa : a = a' := by
        rcases Nat.lt_trichotomy a a' with hl | he | hl
        · have h1 := h a
          rw [Memory.read_cons, if_pos rfl, Memory.read_cons, if_neg (by omega),
            Memory.read_of_wfFrom hm'.2 (by omega)] at h1
          exact absurd h1 hm.1.2
        · exact he
        · have h1 := h a'
          rw [Memory.read_cons, if_neg (by omega), Memory.read_of_wfFrom hm.2 (by omega), Memory.read_cons,
            if_pos rfl] at h1
          exact absurd h1.symm hm'.1.2
      subst haa
      have hb := h a
      rw [Memory.read_cons, if_pos rfl, Memory.read_cons, if_pos rfl] at hb
      subst hb
      congr 1
      refine ih hm.2 hm'.2 fun k => ?_
      have hk := h k
      rw [Memory.read_cons, Memory.read_cons] at hk
      by_cases hak : a = k
      · rw [← hak, Memory.read_of_wfFrom hm.2 (by omega), Memory.read_of_wfFrom hm'.2 (by omega)]
      · rwa [if_neg hak, if_neg hak] at hk

/-- Canonical buffers that read alike are equal. -/
theorem Memory.ext {m m' : Memory} (hm : m.wf = true) (hm' : m'.wf = true) (h : ∀ k, m.read k = m'.read k) : m = m' :=
  Memory.ext_from hm hm' h

/-! ### MemRead -/

@[simp] theorem memRead_zero (m : Memory) (a : Nat) : memRead m a 0 = 0 := rfl

theorem memRead_succ (m : Memory) (a n : Nat) : memRead m a (n + 1) = memRead m a n * 256 + (m.read (a + n)).toNat := rfl

/-- One byte. -/
theorem memRead_one (m : Memory) (a : Nat) : memRead m a 1 = (m.read a).toNat := by
  simp [memRead]

/-- The 16-bit unpacker of R132. -/
theorem memRead_two (m : Memory) (a : Nat) : memRead m a 2 = (m.read a).toNat * 256 + (m.read (a + 1)).toNat := by
  simp [memRead]

theorem memRead_lt (m : Memory) (a n : Nat) : memRead m a n < 256 ^ n := by
  induction n with
  | zero => simp
  | succ n ih =>
    have h := (m.read (a + n)).isLt
    rw [memRead_succ, pow_succ]
    omega

/-- MemRead depends on the bytes it reads only. -/
theorem memRead_congr {m m' : Memory} {a a' n : Nat} (h : ∀ k < n, m.read (a + k) = m'.read (a' + k)) :
    memRead m a n = memRead m' a' n := by
  induction n with
  | zero => rfl
  | succ n ih => rw [memRead_succ, memRead_succ, ih fun k hk => h k (by omega), h n (by omega)]

@[simp] theorem beBytes_length (n v : Nat) : (beBytes n v).length = n := by simp [beBytes]

theorem beBytes_getElem (n v k : Nat) (h : k < (beBytes n v).length) :
    (beBytes n v)[k] = BitVec.ofNat 8 (v >>> (8 * (n - 1 - k))) := by
  simp [beBytes]

/-- What MemWrite wrote, MemRead reads. -/
theorem memRead_of_beBytes {m : Memory} {a n v : Nat} (hv : v < 256 ^ n)
    (h : ∀ k < n, m.read (a + k) = BitVec.ofNat 8 (v >>> (8 * (n - 1 - k)))) : memRead m a n = v := by
  have key : ∀ j, j ≤ n → memRead m a j = v >>> (8 * (n - j)) := by
    intro j
    induction j with
    | zero =>
      intro _
      rw [memRead_zero, Nat.shiftRight_eq_div_pow, Nat.div_eq_of_lt]
      rwa [show 8 * (n - 0) = 8 * n by simp, pow_mul]
    | succ j ih =>
      intro hj
      rw [memRead_succ, ih (by omega), h j (by omega), show n - 1 - j = n - (j + 1) by omega,
        show 8 * (n - j) = 8 * (n - (j + 1)) + 8 by omega, Nat.shiftRight_add]
      simp only [BitVec.toNat_ofNat, Nat.shiftRight_eq_div_pow]
      omega
  simpa using key n le_rfl

end Sys2Proof.Machine
end

