-- ==== Sys2Proof/Laws/State.lean ====
section
/-! SUPPORT. What each update of the state leaves in each field, and the register banks read after a write. -/

namespace Sys2Proof.Machine

@[simp] theorem State.complete_cfg (r : Response) (s : State) : (s.complete r).cfg = s.cfg := rfl
@[simp] theorem State.complete_req (r : Response) (s : State) : (s.complete r).req = s.req := rfl
@[simp] theorem State.complete_resp (r : Response) (s : State) : (s.complete r).resp = r := rfl
@[simp] theorem State.complete_busy (r : Response) (s : State) : (s.complete r).busy = false := rfl
@[simp] theorem State.complete_done (r : Response) (s : State) : (s.complete r).done = true := rfl
@[simp] theorem State.complete_snapshot (r : Response) (s : State) : (s.complete r).snapshot = none := rfl
@[simp] theorem State.complete_agenda (r : Response) (s : State) : (s.complete r).agenda = s.agenda := rfl
@[simp] theorem State.complete_hostData (r : Response) (s : State) : (s.complete r).hostData = s.hostData := rfl

@[simp] theorem State.raise_cfg (c : StatusCode) (s : State) : (s.raise c).cfg = s.cfg := rfl
@[simp] theorem State.raise_req (c : StatusCode) (s : State) : (s.raise c).req = s.req := rfl
@[simp] theorem State.raise_resp (c : StatusCode) (s : State) : (s.raise c).resp = errorResponse c := rfl
@[simp] theorem State.raise_busy (c : StatusCode) (s : State) : (s.raise c).busy = false := rfl
@[simp] theorem State.raise_done (c : StatusCode) (s : State) : (s.raise c).done = true := rfl
@[simp] theorem State.raise_snapshot (c : StatusCode) (s : State) : (s.raise c).snapshot = none := rfl
@[simp] theorem State.raise_agenda (c : StatusCode) (s : State) : (s.raise c).agenda = s.agenda := rfl
@[simp] theorem State.raise_hostData (c : StatusCode) (s : State) : (s.raise c).hostData = s.hostData := rfl

@[simp] theorem State.withReq_cfg (q : Request) (s : State) : (s.withReq q).cfg = s.cfg := rfl
@[simp] theorem State.withReq_req (q : Request) (s : State) : (s.withReq q).req = q := rfl
@[simp] theorem State.withReq_resp (q : Request) (s : State) : (s.withReq q).resp = s.resp := rfl
@[simp] theorem State.withReq_busy (q : Request) (s : State) : (s.withReq q).busy = s.busy := rfl
@[simp] theorem State.withReq_done (q : Request) (s : State) : (s.withReq q).done = s.done := rfl
@[simp] theorem State.withReq_snapshot (q : Request) (s : State) : (s.withReq q).snapshot = s.snapshot := rfl
@[simp] theorem State.withReq_agenda (q : Request) (s : State) : (s.withReq q).agenda = s.agenda := rfl
@[simp] theorem State.withReq_hostData (q : Request) (s : State) : (s.withReq q).hostData = s.hostData := rfl

@[simp] theorem State.resetBlock_cfg (s : State) : (s.resetBlock).cfg = s.cfg := rfl
@[simp] theorem State.resetBlock_req (s : State) : (s.resetBlock).req = Request.zero := rfl
@[simp] theorem State.resetBlock_resp (s : State) : (s.resetBlock).resp = Response.zero := rfl
@[simp] theorem State.resetBlock_busy (s : State) : (s.resetBlock).busy = false := rfl
@[simp] theorem State.resetBlock_done (s : State) : (s.resetBlock).done = false := rfl
@[simp] theorem State.resetBlock_snapshot (s : State) : (s.resetBlock).snapshot = none := rfl
@[simp] theorem State.resetBlock_agenda (s : State) : (s.resetBlock).agenda = s.agenda := rfl
@[simp] theorem State.resetBlock_hostData (s : State) : (s.resetBlock).hostData = s.hostData := rfl

@[simp] theorem State.readStatus_cfg (s : State) : (s.readStatus).cfg = s.cfg := rfl
@[simp] theorem State.readStatus_req (s : State) : (s.readStatus).req = s.req := rfl
@[simp] theorem State.readStatus_resp (s : State) : (s.readStatus).resp = s.resp := rfl
@[simp] theorem State.readStatus_busy (s : State) : (s.readStatus).busy = s.busy := rfl
@[simp] theorem State.readStatus_done (s : State) : (s.readStatus).done = s.done := rfl
@[simp] theorem State.readStatus_snapshot (s : State) : (s.readStatus).snapshot = s.snapshot := rfl
@[simp] theorem State.readStatus_agenda (s : State) : (s.readStatus).agenda = s.agenda := rfl
@[simp] theorem State.readStatus_hostData (s : State) : (s.readStatus).hostData = windowRead 0x02 s := rfl

@[simp] theorem State.pending_cfg (b : Byte) (s : State) : (s.pending b).cfg = s.cfg := rfl
@[simp] theorem State.pending_req (b : Byte) (s : State) : (s.pending b).req = { s.req with cmd := b } := rfl
@[simp] theorem State.pending_resp (b : Byte) (s : State) : (s.pending b).resp = s.resp := rfl
@[simp] theorem State.pending_busy (b : Byte) (s : State) : (s.pending b).busy = true := rfl
@[simp] theorem State.pending_done (b : Byte) (s : State) : (s.pending b).done = false := rfl
@[simp] theorem State.pending_snapshot (b : Byte) (s : State) : (s.pending b).snapshot = some { s.req with cmd := b } := rfl
@[simp] theorem State.pending_agenda (b : Byte) (s : State) : (s.pending b).agenda = .codec :: s.agenda := rfl
@[simp] theorem State.pending_hostData (b : Byte) (s : State) : (s.pending b).hostData = s.hostData := rfl

theorem State.go_idle {s : State} (h : s.busy = false) :
    s.go = { s with snapshot := some s.req, busy := true, done := false } := by
  simp [State.go, h]

theorem State.go_busy {s : State} (h : s.busy = true) : s.go = s := by
  simp [State.go, h]

@[simp] theorem State.go_cfg (s : State) : s.go.cfg = s.cfg := by unfold State.go; split <;> rfl
@[simp] theorem State.go_req (s : State) : s.go.req = s.req := by unfold State.go; split <;> rfl
@[simp] theorem State.go_resp (s : State) : s.go.resp = s.resp := by unfold State.go; split <;> rfl
@[simp] theorem State.go_agenda (s : State) : s.go.agenda = s.agenda := by unfold State.go; split <;> rfl
@[simp] theorem State.go_hostData (s : State) : s.go.hostData = s.hostData := by unfold State.go; split <;> rfl

/-! ### Value registers -/

@[simp] theorem SlotRegs.get_set (r : SlotRegs) (s t : Slot) (v : Value) :
    (r.set s v).get t = if t = s then v else r.get t := by
  cases s <;> cases t <;> rfl

@[simp] theorem SlotRegs.get_ofFn (g : Slot → Value) (s : Slot) : (SlotRegs.ofFn g).get s = g s := by
  cases s <;> rfl

@[simp] theorem SlotRegs.get_zero (s : Slot) : SlotRegs.zero.get s = 0 := by
  cases s <;> rfl

/-- A bank is determined by what its registers read. -/
theorem SlotRegs.ext_get {r r' : SlotRegs} (h : ∀ s, r.get s = r'.get s) : r = r' := by
  cases r
  cases r'
  have h0 := h .temperature
  have h1 := h .humidity
  have h2 := h .pressure
  have h3 := h .accelX
  have h4 := h .accelY
  have h5 := h .accelZ
  have h6 := h .batteryVoltage
  have h7 := h .txPower
  have h8 := h .movementCounter
  have h9 := h .measurementSequence
  have h10 := h .deviceId
  have h11 := h .coarseId
  simp_all [SlotRegs.get]

theorem Slot.mem_all (s : Slot) : s ∈ Slot.all := by
  cases s <;> simp [Slot.all]

@[simp] theorem Slot.ofNum_num (s : Slot) : Slot.ofNum s.num = some s := by
  cases s <;> rfl

theorem Slot.ofNum_eq_some {n : Nat} {s : Slot} (h : Slot.ofNum n = some s) : n = s.num := by
  unfold Slot.ofNum at h
  split at h <;> simp_all [Slot.num] <;> subst h <;> rfl

/-- Bit `n` of a presence register built slot by slot. -/
theorem presentFold_getLsbD (p : Slot → Bool) (l : List Slot) (m : BitVec 12) {n : Nat} (hn : n < 12) :
    (l.foldl (fun m s => if p s then m ||| BitVec.twoPow 12 s.num else m) m).getLsbD n
      = (m.getLsbD n || l.any fun s => p s && decide (s.num = n)) := by
  induction l generalizing m with
  | nil => simp
  | cons s l ih =>
    rw [List.foldl_cons, ih, List.any_cons, ← Bool.or_assoc]
    congr 1
    by_cases h : p s = true
    · simp [h, hn, eq_comm]
    · simp [h]

/-- Bit `s.num` of the presence register is the presence of slot `s`. -/
@[simp] theorem presentMask_getLsbD (p : Slot → Bool) (s : Slot) : (presentMask p).getLsbD s.num = p s := by
  have hs : s.num < 12 := by cases s <;> decide
  rw [presentMask, presentFold_getLsbD p _ _ hs]
  cases s <;> simp [Slot.all, Slot.num]

theorem presentMask_none : presentMask (fun _ => false) = 0 := by
  simp [presentMask, Slot.all]

end Sys2Proof.Machine
end

