-- ==== Sys2Proof/Laws/Exec.lean ====
section
/-! SUPPORT. What a completion can do, said once: every command is `transact` of its own response function. -/

namespace Sys2Proof.Machine

theorem transact_some {s : State} {q : Request} (k : Request → Response) (h : s.snapshot = some q) :
    transact k s = .next (s.complete (k q)) := by
  simp [transact, h]

theorem transact_none {s : State} (k : Request → Response) (h : s.snapshot = none) :
    transact k s = .fault .noPendingTransaction := by
  simp [transact, h]

/-- The response function of a command: `Execute` of R48. -/
def respond (cfg : Config) : Instr → Request → Response
  | .detect => detectResponse
  | .decodeAny => decodeAnyResponse cfg
  | .decodeF2 => decodeF2Response cfg
  | .decodeF3 => decodeF3Response
  | .decodeF4 => decodeF4Response cfg
  | .decodeF5 => decodeF5Response
  | .encodeF2 => encodeF2Response cfg
  | .encodeF3 => encodeF3Response cfg
  | .encodeF4 => encodeF4Response cfg
  | .encodeF5 => encodeF5Response
  | .envWrap => envWrapResponse cfg
  | .envStrip => envStripResponse

theorem exec_eq_transact (i : Instr) (s : State) : exec i s = transact (respond s.cfg i) s := by
  cases i <;> rfl

theorem exec_some {s : State} {q : Request} (i : Instr) (h : s.snapshot = some q) :
    exec i s = .next (s.complete (respond s.cfg i q)) := by
  rw [exec_eq_transact, transact_some _ h]

/-- The inversion lemma of exec: a next state is the completion of the pending transaction. -/
theorem exec_next {i : Instr} {s t : State} (h : exec i s = .next t) :
    ∃ q, s.snapshot = some q ∧ t = s.complete (respond s.cfg i q) := by
  rw [exec_eq_transact] at h
  cases hq : s.snapshot with
  | none => simp [transact_none _ hq] at h
  | some q =>
    rw [transact_some _ hq] at h
    exact ⟨q, rfl, (Host.Outcome.next.inj h).symm⟩

/-! ### The shapes of a response -/

/-- A response is an error, a tag, a reading or a list of bytes. -/
inductive Shape : Response → Prop where
  | error (c : StatusCode) (h : c ≠ .ok) : Shape (errorResponse c)
  | tag (t : Byte) : Shape (tagResponse t)
  | reading (t : Byte) (slots : Slot → Option Int) : Shape (readingResponse t slots)
  | bytes (t : Byte) (bs : List Byte) (h : bs.length ≤ outCap) : Shape (bytesResponse t bs)

theorem joinParts_length {l : List (Option (List Byte))} {bs : List Byte} (h : joinParts l = some bs) :
    bs.length = (l.map fun o => (o.getD []).length).sum := by
  induction l generalizing bs with
  | nil =>
    obtain rfl : [] = bs := by simpa [joinParts] using h
    rfl
  | cons o l ih =>
    cases o with
    | none => simp [joinParts] at h
    | some b =>
      cases hj : joinParts l with
      | none => simp [joinParts, hj] at h
      | some bs' =>
        obtain rfl : b ++ bs' = bs := by simpa [joinParts, hj] using h
        simp [ih hj]

@[simp] theorem joinParts_cons_some (b : List Byte) (l : List (Option (List Byte))) :
    joinParts (some b :: l) = (joinParts l).map (b ++ ·) := by
  cases h : joinParts l <;> simp [joinParts, h]

@[simp] theorem joinParts_cons_none (l : List (Option (List Byte))) : joinParts (none :: l) = none := rfl

@[simp] theorem joinParts_nil : joinParts [] = some [] := rfl

/-- A frame is encoded exactly when each of its parts is. -/
theorem joinParts_isSome (l : List (Option (List Byte))) :
    (joinParts l).isSome = true ↔ ∀ o ∈ l, o.isSome = true := by
  induction l with
  | nil => simp
  | cons o l ih =>
    cases o with
    | none => simp
    | some b => simp [ih]

theorem Field.encode_length (f : Field) (q : Request) : ((f.encode q).getD []).length ≤ f.bytes := by
  unfold Field.encode
  cases f.encodeRaw q <;> simp

theorem powerPart_length (q : Request) : ((powerPart q).getD []).length ≤ 2 := by
  unfold powerPart
  split <;> simp

theorem smagEncodeFrac_length (src : SignSource) (v : Int) : ((smagEncodeFrac src v).getD []).length ≤ 2 := by
  unfold smagEncodeFrac
  simp only
  generalize (if (v.natAbs % 1000000 + 5000) / 10000 = 100 then v.natAbs / 1000000 + 1 else v.natAbs / 1000000) = w
  split <;> simp [smagBytes]

theorem smagEncodeWhole_length (src : SignSource) (v : Int) : ((smagEncodeWhole src v).getD []).length ≤ 2 := by
  unfold smagEncodeWhole
  simp only
  split <;> simp [smagBytes]

theorem smagPart_length {enc : Int → Option (List Byte)} (h : ∀ v, ((enc v).getD []).length ≤ 2) (q : Request) :
    ((smagPart enc q).getD []).length ≤ 2 := by
  unfold smagPart
  split
  · simp
  · exact h _

theorem coarseIdPart_length (form : F4IdForm) (q : Request) : ((coarseIdPart form q).getD []).length ≤ 1 := by
  unfold coarseIdPart
  split
  · simp
  · cases form <;> simp only <;> split <;> simp

theorem frameF5_length {q : Request} {bs : List Byte} (h : frameF5 q = some bs) : bs.length ≤ outCap := by
  have hl := joinParts_length h
  have h1 := powerPart_length q
  have h2 := f5T.encode_length q
  have h3 := f5H.encode_length q
  have h4 := f5P.encode_length q
  have h5 := f5AX.encode_length q
  have h6 := f5AY.encode_length q
  have h7 := f5AZ.encode_length q
  have h8 := f5MOV.encode_length q
  have h9 := f5SEQ.encode_length q
  have h10 := f5ID.encode_length q
  simp only [f5T, f5H, f5P, f5AX, f5AY, f5AZ, f5MOV, f5SEQ, f5ID, Field.signed16, Field.unsigned, outCap, List.map_cons,
    List.map_nil, List.sum_cons, List.sum_nil, Option.getD_some, List.length_singleton] at *
  omega

theorem frameF3_length {cfg : Config} {q : Request} {bs : List Byte} (h : frameF3 cfg q = some bs) :
    bs.length ≤ outCap := by
  have hl := joinParts_length h
  have h1 := smagPart_length (smagEncodeFrac_length cfg.signSource) q
  have h2 := f3H.encode_length q
  have h3 := f3P.encode_length q
  have h4 := f3AX.encode_length q
  have h5 := f3AY.encode_length q
  have h6 := f3AZ.encode_length q
  have h7 := f3BAT.encode_length q
  simp only [f3H, f3P, f3AX, f3AY, f3AZ, f3BAT, Field.signed16, Field.unsigned, outCap, List.map_cons,
    List.map_nil, List.sum_cons, List.sum_nil, Option.getD_some, List.length_singleton] at *
  omega

theorem frameF4_length {cfg : Config} {q : Request} {bs : List Byte} (h : frameF4 cfg q = some bs) :
    bs.length ≤ outCap := by
  have hl := joinParts_length h
  have h1 := smagPart_length (smagEncodeWhole_length cfg.signSource) q
  have h2 := f24H.encode_length q
  have h3 := f24P.encode_length q
  have h4 := coarseIdPart_length cfg.f4IdForm q
  simp only [partsF24, f24H, f24P, Field.unsigned, outCap, List.map_cons, List.cons_append, List.nil_append,
    List.map_nil, List.sum_cons, List.sum_nil, Option.getD_some, List.length_singleton] at *
  omega

theorem frameF2_length {cfg : Config} {q : Request} {bs : List Byte} (h : frameF2 cfg q = some bs) :
    bs.length ≤ outCap := by
  have hl := joinParts_length h
  have h1 := smagPart_length (smagEncodeWhole_length cfg.signSource) q
  have h2 := f24H.encode_length q
  have h3 := f24P.encode_length q
  simp only [partsF24, f24H, f24P, Field.unsigned, outCap, List.map_cons,
    List.map_nil, List.sum_cons, List.sum_nil, Option.getD_some, List.length_singleton] at *
  omega

theorem decodeResponse_shape (tag : Byte) (len : Nat) (slots : Memory → Slot → Option Int) (q : Request) :
    Shape (decodeResponse tag len slots q) := by
  unfold decodeResponse
  split_ifs
  · exact .error _ (by decide)
  · exact .error _ (by decide)
  · exact .reading _ _

theorem encodeResponse_shape (tag : Byte) {frame : Request → Option (List Byte)} {q : Request}
    (h : ∀ bs, frame q = some bs → bs.length ≤ outCap) : Shape (encodeResponse tag frame q) := by
  unfold encodeResponse
  split
  · split
    · exact .error _ (by decide)
    · next bs hb => exact .bytes _ _ (h bs hb)
  · exact .error _ (by decide)

/-- Every completion's response has one of the four shapes. -/
theorem respond_shape (cfg : Config) (i : Instr) (q : Request) : Shape (respond cfg i q) := by
  cases i with
  | detect =>
    simp only [respond, detectResponse]
    split_ifs
    · exact .error _ (by decide)
    · exact .tag _
    · exact .error _ (by decide)
  | decodeAny =>
    simp only [respond, decodeAnyResponse]
    split_ifs
    · exact .error _ (by decide)
    all_goals first | exact decodeResponse_shape _ _ _ _ | exact .error _ (by decide)
  | decodeF2 => exact decodeResponse_shape _ _ _ _
  | decodeF3 => exact decodeResponse_shape _ _ _ _
  | decodeF4 => exact decodeResponse_shape _ _ _ _
  | decodeF5 => exact decodeResponse_shape _ _ _ _
  | encodeF2 => exact encodeResponse_shape _ fun _ => frameF2_length
  | encodeF3 => exact encodeResponse_shape _ fun _ => frameF3_length
  | encodeF4 => exact encodeResponse_shape _ fun _ => frameF4_length
  | encodeF5 => exact encodeResponse_shape _ fun _ => frameF5_length
  | envWrap =>
    simp only [respond, envWrapResponse]
    split_ifs
    · exact .error _ (by decide)
    · exact .bytes _ _ (by simp [payload, outCap])
  | envStrip =>
    simp only [respond, envStripResponse]
    split_ifs
    · exact .error _ (by decide)
    · exact .bytes _ _ (by simp [payload, outCap])

end Sys2Proof.Machine
end

