-- ==== Sys2Proof/Laws/Fields.lean ====
section
/-! SUPPORT. The laws of one field: what a decode of it reports and what an encode of it writes, in register units and in the
rational forms of Safety.lean. -/

namespace Sys2Proof.Machine

/-! ### Decoding -/

theorem sx16_bounds {u : Nat} (h : u < 65536) : -32768 ≤ sx16 u ∧ sx16 u ≤ 32767 := by
  unfold sx16
  split <;> omega

/-- A two's complement value is its unsigned form modulo 2^16. -/
theorem sx16_emod {u : Nat} (h : u < 65536) : sx16 u % 65536 = u := by
  unfold sx16
  split <;> omega

/-- The raw value of a signed field (R132). -/
theorem Field.raw_signed16 {slot : Slot} {base : Nat} {scale : Int} {snt : Option Int} (m : Memory) :
    (Field.signed16 slot base scale snt).raw m = sx16 (memRead m base 2) := by
  have := memRead_lt m base 2
  simp only [Field.raw, Field.signed16, Nat.shiftRight_zero, if_true]
  rw [Nat.mod_eq_of_lt (by omega)]

/-- The raw value of an unsigned field (R132). -/
theorem Field.raw_unsigned {slot : Slot} {base bytes : Nat} {scale off snt : Int} (m : Memory) :
    (Field.unsigned slot base bytes scale off snt).raw m = memRead m base bytes := by
  have := memRead_lt m base bytes
  simp only [Field.raw, Field.unsigned, Nat.shiftRight_zero, Bool.false_eq_true, if_false]
  rw [Nat.mod_eq_of_lt (by rw [pow_mul]; exact this)]

/-- A decoded reading holds at slot `k` the physical value `v`, if `v` times the slot's scale fits the register. -/
theorem readingResponse_hasSlot {tag : Byte} {sl : Slot → Option Int} {k : Slot} {v : Option ℚ}
    (h : match sl k, v with
      | none, none => True
      | some x, some y => (-(2 ^ 63) ≤ x ∧ x < 2 ^ 63) ∧ (x : ℚ) = y * (k.unit : ℚ)
      | _, _ => False) :
    (readingResponse tag sl).HasSlot k v := by
  cases hx : sl k <;> cases v <;> rw [hx] at h <;> simp only at h
  · simp [Response.HasSlot, readingResponse, hx]
  · simp only [Response.HasSlot, readingResponse, presentMask_getLsbD, SlotRegs.get_ofFn, hx, Option.isSome_some,
      Option.getD_some, true_and]
    rw [BitVec.toInt_ofInt, ← h.2]
    norm_cast
    rw [Int.bmod_def]
    split_ifs <;> omega

/-- A linear field's slot (R134, R137): absent at the sentinel, else the physical value of the raw value. -/
theorem readingResponse_hasSlot_field {f : Field} {m : Memory} {snt : ℤ} {v : ℚ → ℚ} {k : Slot} {tag : Byte}
    {sl : Slot → Option Int} (raw : ℤ) (hk : sl k = f.decode m) (hraw : f.raw m = raw) (hs : f.sentinel = some snt)
    (hb : -(2 ^ 63) ≤ f.valueOf raw ∧ f.valueOf raw < 2 ^ 63) (hv : (f.valueOf raw : ℚ) = v raw * (k.unit : ℚ)) :
    (readingResponse tag sl).HasSlot k (unlessSentinel raw snt v) := by
  apply readingResponse_hasSlot
  rw [hk]
  unfold Field.decode unlessSentinel
  rw [hraw, hs]
  by_cases h : raw = snt
  · simp [h]
  · simp only [Option.some.injEq, Ne.symm h, if_false, h]
    exact ⟨hb, hv⟩

/-- A sign-magnitude temperature's slot (R143, R144). -/
theorem readingResponse_hasSlot_smag {k : Slot} {tag b2 b3 : Byte} {sl : Slot → Option Int} {fr : Bool}
    (hu : k.unit = 1000000) (h : sl k = smagDecode b2 b3 fr) :
    (readingResponse tag sl).HasSlot k (smagDecodeSpec b2 b3 fr) := by
  apply readingResponse_hasSlot
  rw [h]
  unfold smagDecode smagDecodeSpec
  by_cases h0 : b2 = 0 ∧ b3 = 0
  · simp [h0]
  · rw [if_neg h0, if_neg h0]
    have e1 : (b2.extractLsb' 0 7).toNat = b2.toNat % 128 := by simp
    have e2 : ∀ b : Byte, b.getLsbD 7 = decide (128 ≤ b.toNat) := by decide
    have l2 : b2.toNat % 128 < 128 := Nat.mod_lt _ (by decide)
    have l3 := b3.isLt
    simp only [e1, e2, decide_eq_true_eq, hu]
    generalize b2.toNat % 128 = w at l2
    refine ⟨?_, ?_⟩
    · split_ifs <;> omega
    · split_ifs <;> push_cast <;> ring

/-- What a decode of a field reports for a raw value (R134, R135). -/
theorem Field.decode_of_raw {f : Field} {m : Memory} {raw : ℤ} (h : f.raw m = raw) :
    f.decode m = if f.sentinel = some raw then none else some (f.valueOf raw) := by
  rw [Field.decode, h]

/-! ### Encoding -/

/-- A quantized value lies between the offset and the value it came from, less than one step away (R139, R152). -/
theorem Field.quantize_error {f : Field} (hsc : 0 < f.scale) (v : ℤ) :
    |v - f.valueOf (f.quantize v)| < f.scale ∧
      (f.offset ≤ v → f.offset ≤ f.valueOf (f.quantize v) ∧ f.valueOf (f.quantize v) ≤ v) ∧
      (v ≤ f.offset → v ≤ f.valueOf (f.quantize v) ∧ f.valueOf (f.quantize v) ≤ f.offset) := by
  unfold Field.valueOf Field.quantize tdiv
  generalize f.offset = o
  generalize f.scale = c at hsc
  have hd := Int.mul_tdiv_add_tmod (v - o) c
  have hl := Int.tmod_lt_of_pos (v - o) hsc
  have hl' : -c < (v - o).tmod c := by
    have := Int.tmod_lt_of_pos (-(v - o)) hsc
    rw [Int.neg_tmod] at this
    omega
  have hn : 0 ≤ v - o → 0 ≤ (v - o).tmod c := Int.tmod_nonneg _
  have hp : v - o ≤ 0 → (v - o).tmod c ≤ 0 := fun h => by
    have := Int.tmod_nonneg c (show 0 ≤ -(v - o) by omega)
    rw [Int.neg_tmod] at this
    omega
  have dn : 0 ≤ v - o → 0 ≤ (v - o).tdiv c := fun h => Int.tdiv_nonneg h hsc.le
  have dp : v - o ≤ 0 → (v - o).tdiv c ≤ 0 := fun h => by
    have := Int.tdiv_nonneg (show 0 ≤ -(v - o) by omega) hsc.le
    rw [Int.neg_tdiv] at this
    omega
  generalize (v - o).tdiv c = d at *
  generalize (v - o).tmod c = r at *
  rw [mul_comm] at hd
  refine ⟨abs_lt.mpr ⟨by omega, by omega⟩, fun h => ?_, fun h => ?_⟩
  · have := hn (by omega)
    have := mul_nonneg (dn (by omega)) hsc.le
    omega
  · have := hp (by omega)
    have := mul_nonpos_of_nonpos_of_nonneg (dp (by omega)) hsc.le
    omega

/-- The rational truncation and the integer division of R10 agree. -/
theorem trunc_div {b : ℤ} (a : ℤ) (hb : 0 < b) : trunc ((a : ℚ) / b) = tdiv a b := by
  have hb' : (0 : ℚ) < b := by exact_mod_cast hb
  have hf : ∀ c : ℤ, ⌊(c : ℚ) / b⌋ = c / b := by
    intro c
    rw [Int.floor_eq_iff]
    have h1 := Int.emod_nonneg c hb.ne'
    have h2 := Int.emod_lt_of_pos c hb
    have h3 : (c : ℚ) = b * (c / b : ℤ) + (c % b : ℤ) := by exact_mod_cast (Int.mul_ediv_add_emod c b).symm
    rw [le_div_iff₀ hb', div_lt_iff₀ hb']
    have h1' : (0 : ℚ) ≤ (c % b : ℤ) := by exact_mod_cast h1
    have h2' : ((c % b : ℤ) : ℚ) < b := by exact_mod_cast h2
    constructor <;> nlinarith
  unfold trunc tdiv
  by_cases ha : 0 ≤ a
  · rw [if_pos (div_nonneg (by exact_mod_cast ha) hb'.le), hf, Int.tdiv_eq_ediv_of_nonneg ha]
  · have hn : (a : ℚ) / b < 0 := div_neg_of_neg_of_pos (by exact_mod_cast not_le.mp ha) hb'
    rw [if_neg (not_le.mpr hn)]
    have : ⌈(a : ℚ) / b⌉ = -⌊((-a : ℤ) : ℚ) / b⌋ := by
      rw [← Int.ceil_neg]
      congr 1
      push_cast
      ring
    rw [this, hf, ← Int.tdiv_eq_ediv_of_nonneg (by omega), Int.neg_tdiv, neg_neg]

/-- What an encode writes for an unmasked field with a sentinel: the raw value if it is in range. -/
theorem Field.encodeRaw_eq {f : Field} {snt : ℤ} {g : ℚ → ℤ} (q : Request) (hm : f.masked = false)
    (hs : f.sentinel = some snt) (hl : f.lo ≤ snt ∧ snt ≤ f.hi)
    (hg : ∀ v : ℤ, f.quantize v = g ((v : ℚ) / (f.slot.unit : ℚ))) :
    f.encodeRaw q = if f.lo ≤ q.rawOr f.slot snt g ∧ q.rawOr f.slot snt g ≤ f.hi then some (q.rawOr f.slot snt g)
      else none := by
  unfold Field.encodeRaw Request.rawOr Request.valueIn
  cases q.slotIn f.slot with
  | none => simp [hs, hl]
  | some v => simp [hm, hg]

/-- A masked field (R142) is never refused. -/
theorem Field.encodeRaw_masked {f : Field} {snt : ℤ} {g : ℚ → ℤ} (q : Request) (hm : f.masked = true)
    (hs : f.sentinel = some snt) (hl : snt % 2 ^ f.bits = snt)
    (hg : ∀ v : ℤ, f.quantize v = g ((v : ℚ) / (f.slot.unit : ℚ))) :
    f.encodeRaw q = some (q.rawOr f.slot snt g % 2 ^ f.bits) := by
  unfold Field.encodeRaw Request.rawOr Request.valueIn
  cases q.slotIn f.slot with
  | none => simp [hs, hl]
  | some v => simp [hm, hg]

/-- The quantizer of a linear field in physical units (R139, R151). -/
theorem Field.quantize_eq {f : Field} {g : ℚ → ℤ} (hsc : 0 < f.scale)
    (hg : ∀ x : ℚ, g x = trunc ((x * f.slot.unit - f.offset) / f.scale)) (hu : f.slot.unit ≠ 0) (v : ℤ) :
    f.quantize v = g ((v : ℚ) / (f.slot.unit : ℚ)) := by
  have hu' : (f.slot.unit : ℚ) ≠ 0 := by exact_mod_cast hu
  rw [hg, div_mul_cancel₀ _ hu', Field.quantize, ← trunc_div _ hsc]
  push_cast
  rfl

/-- Bytes before the read ones do not matter. -/
theorem read_ofBytes_append_right (l l' : List Byte) (k : Nat) :
    (Memory.ofBytes (l ++ l')).read (l.length + k) = (Memory.ofBytes l').read k := by
  simp [List.getElem?_append_right]

/-- The same for MemRead. -/
theorem memRead_ofBytes_append_right (l l' : List Byte) {a n : Nat} (h : l.length ≤ a) :
    memRead (Memory.ofBytes (l ++ l')) a n = memRead (Memory.ofBytes l') (a - l.length) n := by
  refine memRead_congr fun k _ => ?_
  rw [show a + k = l.length + (a - l.length + k) by omega, read_ofBytes_append_right]

/-- MemRead of written bytes gives the value MemWrite was given. -/
theorem memRead_ofBytes_beBytes {n v : Nat} (l : List Byte) (hv : v < 256 ^ n) :
    memRead (Memory.ofBytes (beBytes n v ++ l)) 0 n = v := by
  refine memRead_of_beBytes hv fun k hk => ?_
  rw [Nat.zero_add, Memory.read_ofBytes, List.getD_append _ _ _ _ (by simpa using hk),
    List.getD_eq_getElem _ _ (by simpa using hk), beBytes_getElem]

end Sys2Proof.Machine
end

