-- ==== Sys2Proof/Laws/Encode.lean ====
section
/-! SUPPORT. One lemma for each part of an encoded frame that says when the part fits and which bytes it is: the linear
fields, the sign-magnitude temperature, the Format-4 identifier, the power-info word; and the outcomes of an ENCODE. -/

namespace Sys2Proof.Machine

/-- A frame's response, apart from its bytes. -/
theorem bytesResponse_isFrame (tag : Byte) {bs : List Byte} {n : Nat} (h : bs.length = n) (hn : n ≤ 26) :
    (bytesResponse tag bs).IsFrame tag n := by
  subst h
  refine ⟨rfl, rfl, ?_, rfl, rfl, fun k => SlotRegs.get_zero k, fun k hk => ?_⟩
  · simp only [bytesResponse, BitVec.toNat_ofNat]
    omega
  · simp only [bytesResponse]
    rw [Memory.read_ofBytes, List.getD_eq_default _ _ hk]
    rfl

/-- The three outcomes of an ENCODE command (R38, R306, R310). -/
theorem exec_encode {i : Instr} {tag : Byte} {frame : Request → Option (List Byte)} {s : State} {q : Request}
    (hs : s.snapshot = some q) (hr : respond s.cfg i q = encodeResponse tag frame q) :
    (q.rdValid = false → exec i s = .next (s.complete (errorResponse .nilInput))) ∧
    (q.rdValid = true → frame q = none → exec i s = .next (s.complete (errorResponse .encodeDomain))) ∧
    (∀ bs, q.rdValid = true → frame q = some bs → exec i s = .next (s.complete (bytesResponse tag bs))) := by
  rw [exec_some _ hs, hr]
  unfold encodeResponse
  refine ⟨fun h => ?_, fun h h2 => ?_, fun bs h h2 => ?_⟩
  · rw [if_neg (by simp [h])]
  · rw [if_pos h, h2]
  · rw [if_pos h, h2]

/-! ### Linear fields -/

/-- A field that fits is written whole; one that does not is EncodeDomain. `R` is the raw value (Field.encodeRaw_eq). -/
theorem Field.encode_eq {f : Field} {q : Request} {R : ℤ}
    (h : f.encodeRaw q = if f.lo ≤ R ∧ R ≤ f.hi then some R else none) :
    f.encode q = if f.lo ≤ R ∧ R ≤ f.hi then some (beBytes f.bytes (R % 2 ^ (8 * f.bytes)).toNat) else none := by
  unfold Field.encode
  split_ifs at h ⊢ <;> simp [h]

/-- A field in slot units, such as a counter or the device address. -/
theorem Field.encodeRaw_plain {f : Field} {q : Request} {snt : ℤ} (hm : f.masked = false)
    (hs : f.sentinel = some snt) (hl : f.lo ≤ snt ∧ snt ≤ f.hi) (hg : ∀ v : ℤ, f.quantize v = v) :
    f.encodeRaw q = if f.lo ≤ (q.slotIn f.slot).getD snt ∧ (q.slotIn f.slot).getD snt ≤ f.hi
      then some ((q.slotIn f.slot).getD snt) else none := by
  unfold Field.encodeRaw
  cases q.slotIn f.slot with
  | none => simp [hs, hl]
  | some v => simp [hm, hg]

/-- What MemRead finds where a field was written: the raw value modulo the field's size. -/
theorem memRead_ofBytes_field {n : Nat} {x : ℤ} (l : List Byte) :
    (memRead (Memory.ofBytes (beBytes n (x % 2 ^ (8 * n)).toNat ++ l)) 0 n : ℤ) = x % 2 ^ (8 * n) := by
  have h0 : 0 ≤ x % 2 ^ (8 * n) := Int.emod_nonneg _ (by positivity)
  have h1 : x % 2 ^ (8 * n) < 2 ^ (8 * n) := Int.emod_lt_of_pos _ (by positivity)
  rw [memRead_ofBytes_beBytes]
  · omega
  · rw [show (256 : ℕ) = 2 ^ 8 from rfl, ← pow_mul]
    zify
    rw [Int.toNat_of_nonneg h0]
    exact h1

/-! ### Sign-magnitude temperature -/

theorem abs_register (v : ℤ) : |(v : ℚ) / (1000000 : ℤ)| = (v.natAbs : ℚ) / (1000000 : ℤ) := by
  rw [abs_div]
  congr 1
  rw [Nat.cast_natAbs]
  push_cast
  rfl

theorem floor_register (n : ℕ) : ⌊(n : ℚ) / (1000000 : ℤ)⌋ = ((n / 1000000 : ℕ) : ℤ) := by
  have h := Rat.floor_intCast_div_natCast n 1000000
  push_cast at h ⊢
  exact h

/-- The rounded hundredths of R145 in register form. -/
theorem fracSpec_register (v : ℤ) :
    fracSpec ((v : ℚ) / (1000000 : ℤ)) = (((v.natAbs % 1000000 + 5000) / 10000 : ℕ) : ℤ) := by
  unfold fracSpec
  rw [abs_register, floor_register]
  generalize v.natAbs = n
  have h3 : (n : ℚ) = 1000000 * (n / 1000000 : ℕ) + (n % 1000000 : ℕ) := by
    exact_mod_cast (Nat.div_add_mod n 1000000).symm
  generalize n / 1000000 = a at *
  generalize n % 1000000 = b at *
  have h4 : ((n : ℚ) / (1000000 : ℤ) - ((a : ℕ) : ℤ)) * 100 = (b : ℚ) / 10000 := by
    push_cast at h3 ⊢
    field_simp
    linarith
  have h5 : (b : ℚ) / 10000 + 1 / 2 = (((b + 5000 : ℕ) : ℤ) : ℚ) / ((10000 : ℕ) : ℚ) := by
    push_cast
    field_simp
    ring
  rw [h4]
  unfold rhaz
  rw [if_pos (by positivity), h5, Rat.floor_intCast_div_natCast]
  push_cast
  rfl

/-- The sign condition of R147 in register form. -/
theorem negSpec_register (src : SignSource) (v : ℤ) : negSpec src ((v : ℚ) / (1000000 : ℤ)) ↔ smagNeg src v = true := by
  unfold negSpec smagNeg
  cases src <;> simp only [decide_eq_true_eq]
  · rw [div_neg_iff]
    constructor
    · rintro (⟨_, h⟩ | ⟨h, _⟩)
      · norm_num at h
      · exact_mod_cast h
    · intro h
      exact .inr ⟨by exact_mod_cast h, by norm_num⟩
  · rw [trunc_div _ (by decide)]

/-- Byte 2 of an encoded temperature. -/
theorem signedWhole_register (src : SignSource) (v : ℤ) {w : ℕ} (h : w ≤ 127) :
    signedWhole src ((v : ℚ) / (1000000 : ℤ)) w
      (((if smagNeg src v then 0x80#8 else 0x00#8) ||| BitVec.ofNat 8 w).toNat : ℤ) := by
  have hb : ∀ w ≤ 127, ∀ neg : Bool,
      ((if neg then 0x80#8 else 0x00#8) ||| BitVec.ofNat 8 w).toNat = if neg then 128 + w else w := by decide
  unfold signedWhole
  rw [negSpec_register, hb w h]
  refine ⟨fun h => ?_, fun h => ?_⟩
  · rw [if_pos h]
    push_cast
    rfl
  · rw [if_neg h]

/-- What smagEncodeFrac does (R145): the bytes of the rational form, or EncodeDomain exactly above 127 degrees. -/
theorem smagEncodeFrac_spec (src : SignSource) (v : ℤ) :
    match smagEncodeFrac src v with
    | none => ¬ wholeSpec ((v : ℚ) / (1000000 : ℤ)) ≤ 127
    | some bs => wholeSpec ((v : ℚ) / (1000000 : ℤ)) ≤ 127 ∧ ∃ b2 b3 : Byte, bs = [b2, b3] ∧
        smagFracSpec src ((v : ℚ) / (1000000 : ℤ)) b2.toNat b3.toNat := by
  have e1 := fracSpec_register v
  have e2 : wholeSpec ((v : ℚ) / (1000000 : ℤ)) =
      ((if (v.natAbs % 1000000 + 5000) / 10000 = 100 then v.natAbs / 1000000 + 1 else v.natAbs / 1000000 : ℕ) : ℤ) := by
    unfold wholeSpec
    rw [e1, abs_register, floor_register]
    by_cases hh : (v.natAbs % 1000000 + 5000) / 10000 = 100
    · rw [if_pos hh, if_pos (by rw [hh]; rfl)]
      push_cast
      rfl
    · rw [if_neg hh, if_neg (by exact_mod_cast hh)]
  unfold smagEncodeFrac
  simp only
  rw [e2]
  have hf : (v.natAbs % 1000000 + 5000) / 10000 ≤ 100 := by omega
  generalize (v.natAbs % 1000000 + 5000) / 10000 = f at *
  generalize (if f = 100 then v.natAbs / 1000000 + 1 else v.natAbs / 1000000) = w at *
  by_cases h : 127 < w
  · rw [if_pos h]
    simp only
    omega
  · rw [if_neg h]
    refine ⟨by omega, _, _, rfl, ?_⟩
    unfold smagFracSpec
    rw [e2, e1]
    refine ⟨signedWhole_register src v (by omega), ?_⟩
    by_cases hh : f = 100
    · simp [hh]
    · rw [if_neg hh, if_neg (by exact_mod_cast hh), BitVec.toNat_ofNat]
      omega

/-- What smagEncodeWhole does (R146). -/
theorem smagEncodeWhole_spec (src : SignSource) (v : ℤ) :
    match smagEncodeWhole src v with
    | none => ¬ ⌊|(v : ℚ) / (1000000 : ℤ)|⌋ ≤ 127
    | some bs => ⌊|(v : ℚ) / (1000000 : ℤ)|⌋ ≤ 127 ∧ ∃ b2 b3 : Byte, bs = [b2, b3] ∧
        smagWholeSpec src ((v : ℚ) / (1000000 : ℤ)) b2.toNat b3.toNat := by
  unfold smagEncodeWhole
  simp only
  rw [abs_register, floor_register]
  generalize hw : v.natAbs / 1000000 = w at *
  by_cases h : 127 < w
  · rw [if_pos h]
    simp only
    omega
  · rw [if_neg h]
    refine ⟨by omega, _, _, rfl, ?_⟩
    unfold smagWholeSpec
    rw [abs_register, floor_register, hw]
    exact ⟨signedWhole_register src v (by omega), by simp⟩

/-- The temperature part of a frame, absent slot included. -/
theorem smagPart_spec {enc : ℤ → Option (List Byte)} {ok : ℚ → Prop} {spec : ℚ → ℤ → ℤ → Prop} (q : Request)
    (h : ∀ v : ℤ, match enc v with
      | none => ¬ ok ((v : ℚ) / (1000000 : ℤ))
      | some bs => ok ((v : ℚ) / (1000000 : ℤ)) ∧ ∃ b2 b3 : Byte, bs = [b2, b3] ∧
          spec ((v : ℚ) / (1000000 : ℤ)) b2.toNat b3.toNat) :
    match smagPart enc q with
    | none => ¬ ∀ v, q.valueIn .temperature = some v → ok v
    | some bs => (∀ v, q.valueIn .temperature = some v → ok v) ∧ ∃ b2 b3 : Byte, bs = [b2, b3] ∧
        temperatureBytes q spec b2 b3 := by
  unfold smagPart temperatureBytes Request.valueIn
  cases q.slotIn .temperature with
  | none => simp
  | some v =>
    have h := h v
    have hu : Slot.temperature.unit = 1000000 := rfl
    simp only [Option.map_some, hu]
    cases he : enc v with
    | none =>
      rw [he] at h
      simpa using h
    | some bs =>
      rw [he] at h
      exact ⟨fun w hw => Option.some.inj hw ▸ h.1, h.2⟩

/-! ### The Format-4 identifier and the power-info word -/

/-- What coarseIdPart does (R262). -/
theorem coarseIdPart_spec (form : F4IdForm) (q : Request) :
    match coarseIdPart form q with
    | none => ¬ ∀ v, q.slotIn .coarseId = some v → within 0 (match form with | .shifted => 63 | .inPlace => 255) v
    | some bs => (∀ v, q.slotIn .coarseId = some v → within 0 (match form with | .shifted => 63 | .inPlace => 255) v) ∧
        ∃ b : Byte, bs = [b] ∧ (b.toNat : ℤ) =
          match form with
          | .shifted => 4 * (q.slotIn .coarseId).getD 0
          | .inPlace => (q.slotIn .coarseId).getD 0 - (q.slotIn .coarseId).getD 0 % 4 := by
  unfold coarseIdPart
  cases q.slotIn .coarseId with
  | none =>
    refine ⟨by simp, _, rfl, ?_⟩
    cases form <;> rfl
  | some v =>
    cases form <;> simp only
    · by_cases h : 0 ≤ v ∧ v ≤ 63
      · rw [if_pos h]
        refine ⟨fun w hw => Option.some.inj hw ▸ h, _, rfl, ?_⟩
        obtain ⟨n, rfl⟩ := Int.eq_ofNat_of_zero_le h.1
        simp [Nat.shiftLeft_eq]
        omega
      · rw [if_neg h]
        exact fun hh => h (hh v rfl)
    · by_cases h : 0 ≤ v ∧ v ≤ 255
      · rw [if_pos h]
        refine ⟨fun w hw => Option.some.inj hw ▸ h, _, rfl, ?_⟩
        have hb : ∀ b : Byte, ((b &&& 0xFC#8).toNat : ℤ) = (b.toNat : ℤ) - (b.toNat : ℤ) % 4 := by decide
        rw [hb, BitVec.toNat_ofNat, Option.getD_some]
        omega
      · rw [if_neg h]
        exact fun hh => h (hh v rfl)

/-- The power-info word (R142, R202) as the two bytes of one number. -/
theorem powerPart_spec {q : Request} {b t : ℤ} (hb : f5BAT.encodeRaw q = some (b % 2 ^ 11))
    (ht : f5TX.encodeRaw q = some (t % 2 ^ 5)) :
    powerPart q = some (beBytes 2 ((b % 2048 * 32 + t % 32) % 2 ^ (8 * 2)).toNat) := by
  unfold powerPart
  rw [hb, ht]
  show some (beBytes 2 (((b % 2048).toNat <<< 5) ||| (t % 32).toNat)) = _
  rw [Nat.shiftLeft_eq, Nat.mul_comm, ← Nat.two_pow_add_eq_or_of_lt (by omega)]
  congr 2
  omega

end Sys2Proof.Machine
end

