-- ==== Sys2Proof/Laws/PerInstr.lean ====
section
/-! SUPPORT. The per-command family RoundTrip: a command's word decodes to the command, and the command is well formed. -/

namespace Sys2Proof.Laws.RoundTrip

def Statement (i : Instr) : Prop := Sys2Proof.decode (Sys2Proof.encode i) = .ok i ∧ i.wf = true

theorem detect : Statement .detect := ⟨rfl, rfl⟩
theorem decodeAny : Statement .decodeAny := ⟨rfl, rfl⟩
theorem decodeF2 : Statement .decodeF2 := ⟨rfl, rfl⟩
theorem decodeF3 : Statement .decodeF3 := ⟨rfl, rfl⟩
theorem decodeF4 : Statement .decodeF4 := ⟨rfl, rfl⟩
theorem decodeF5 : Statement .decodeF5 := ⟨rfl, rfl⟩
theorem encodeF2 : Statement .encodeF2 := ⟨rfl, rfl⟩
theorem encodeF3 : Statement .encodeF3 := ⟨rfl, rfl⟩
theorem encodeF4 : Statement .encodeF4 := ⟨rfl, rfl⟩
theorem encodeF5 : Statement .encodeF5 := ⟨rfl, rfl⟩
theorem envWrap : Statement .envWrap := ⟨rfl, rfl⟩
theorem envStrip : Statement .envStrip := ⟨rfl, rfl⟩

end Sys2Proof.Laws.RoundTrip
end

