-- ==== Sys2Proof/Laws/Step.lean ====
section
/-! SUPPORT. What the codec unit's move and one step can do, said once: the cases of codecMove, the step of an idle or a
host-driven machine, the response's form, and the invariant taken apart. -/

namespace Sys2Proof.Machine

/-- With no transaction pending the codec unit has no move. -/
theorem codecMove_none {s : State} (h : s.snapshot = none) : codecMove s = .next s := by
  simp [codecMove, h]

/-- With one pending it completes it, with a response of one of the four shapes. -/
theorem codecMove_some {s : State} {q : Request} (h : s.snapshot = some q) :
    ∃ r, Shape r ∧ codecMove s = .next (s.complete r) := by
  unfold codecMove
  rw [h]
  simp only
  split
  · exact ⟨_, respond_shape _ _ _, exec_some _ h⟩
  · exact ⟨_, .error _ (by decide), rfl⟩

/-- The codec unit never stops. -/
theorem codecMove_next (s : State) : ∃ t, codecMove s = .next t := by
  cases h : s.snapshot with
  | none => exact ⟨s, codecMove_none h⟩
  | some q =>
    obtain ⟨r, _, h⟩ := codecMove_some h
    exact ⟨_, h⟩

/-- The inversion lemma of codecMove: nothing, or the completion of the pending transaction. -/
theorem codecMove_cases {s t : State} (h : codecMove s = .next t) :
    t = s ∨ ∃ q r, s.snapshot = some q ∧ Shape r ∧ t = s.complete r := by
  cases hq : s.snapshot with
  | none =>
    rw [codecMove_none hq] at h
    exact .inl (Host.Outcome.next.inj h).symm
  | some q =>
    obtain ⟨r, hr, he⟩ := codecMove_some hq
    rw [he] at h
    exact .inr ⟨q, r, rfl, hr, (Host.Outcome.next.inj h).symm⟩

/-- A step with no host act pending is the codec unit's. -/
theorem step_idle {s : State} (hc : codeReserved s.resp.code = false) (ha : s.agenda = []) : step s = codecMove s := by
  simp [step, moveOnce, hc, ha]

/-- A step with a host act pending is that act, the acts after it left in the agenda. -/
theorem step_act {s : State} {a : BusAct} {rest : List BusAct} (hc : codeReserved s.resp.code = false)
    (ha : s.agenda = a :: rest) : step s = hostMove a { s with agenda := rest } := by
  simp [step, moveOnce, hc, ha]

/-- One step of a longer run. -/
theorem run_succ {s t : State} (n : Nat) (h : step s = .next t) :
    Host.Core.run Sys2Proof.core (n + 1) s = Host.Core.run Sys2Proof.core n t := by
  have h' : Sys2Proof.core.step s = .next t := h
  simp only [Host.Core.run, h']

@[simp] theorem run_zero (s : State) : Host.Core.run Sys2Proof.core 0 s = .next s := rfl

/-- A run of `m + n` steps is a run of `n` from where a run of `m` arrives. -/
theorem run_add {s t : State} {m : Nat} (n : Nat) (h : Host.Core.run Sys2Proof.core m s = .next t) :
    Host.Core.run Sys2Proof.core (m + n) s = Host.Core.run Sys2Proof.core n t := by
  induction m generalizing s with
  | zero =>
    obtain rfl : s = t := Host.Outcome.next.inj h
    rw [Nat.zero_add]
  | succ m ih =>
    rw [show m + 1 + n = (m + n) + 1 by omega]
    cases hs : step s with
    | next s' =>
      rw [run_succ _ hs] at h ⊢
      exact ih h
    | fault r =>
      have hs' : Sys2Proof.core.step s = .fault r := hs
      simp [Host.Core.run, hs'] at h
    | refused r =>
      have hs' : Sys2Proof.core.step s = .refused r := hs
      simp [Host.Core.run, hs'] at h

/-! ### The form of a response, and the invariant -/

/-- The form every completion leaves. -/
theorem Shape.inv {r : Response} (h : Shape r) : r.inv = true := by
  cases h with
  | error c h => cases c <;> first | exact absurd rfl h | decide
  | tag t =>
    simp [tagResponse, Response.inv, Response.zero, codeReserved, Memory.wf, Memory.wfFrom, Memory.below,
      Response.absentZero]
  | reading t slots =>
    simp [readingResponse, Response.inv, Response.zero, codeReserved, Memory.wf, Memory.wfFrom, Memory.below,
      Response.absentZero]
    intro s _
    cases slots s <;> simp
  | bytes t bs h =>
    have h1 : bs.length % 256 = bs.length := Nat.mod_eq_of_lt (by simp [outCap] at h; omega)
    simp [bytesResponse, Response.inv, Response.zero, codeReserved, Response.absentZero, Memory.ofBytes_wf, h1, h,
      Memory.ofBytes_below]

theorem Shape.code {r : Response} (h : Shape r) : codeReserved r.code = false := by
  cases h with
  | error c h => cases c <;> rfl
  | tag t => rfl
  | reading t slots => rfl
  | bytes t bs h => rfl

/-- The clauses of the invariant. -/
theorem State.inv_iff (s : State) :
    s.inv = true ↔ s.cfg.wf = true ∧ s.req.inv s.cfg = true ∧ (∀ q, s.snapshot = some q → q.inv s.cfg = true) ∧
      s.resp.inv = true ∧ s.busy = s.snapshot.isSome ∧ ¬(s.busy = true ∧ s.done = true) := by
  unfold State.inv
  cases s.snapshot <;> cases s.busy <;> cases s.done <;> simp [and_assoc]

theorem State.inv_code {s : State} (h : s.inv = true) : codeReserved s.resp.code = false := by
  have h := ((State.inv_iff s).mp h).2.2.2.1
  simp only [Response.inv, Bool.and_eq_true, Bool.not_eq_true'] at h
  exact h.1.1.1.1.1.1

theorem State.inv_outLen {s : State} (h : s.inv = true) : s.resp.outLen.toNat ≤ 26 := by
  have h := ((State.inv_iff s).mp h).2.2.2.1
  simp only [Response.inv, Bool.and_eq_true] at h
  exact of_decide_eq_true h.1.1.1.1.1.2

theorem State.inv_inCap {s : State} (h : s.inv = true) : 26 ≤ s.cfg.inCap ∧ s.cfg.inCap ≤ 255 := by
  have h := ((State.inv_iff s).mp h).1
  simpa [Config.wf] using h

theorem State.inv_inBuf {s : State} (h : s.inv = true) : s.req.inBuf.wf = true ∧ s.req.inBuf.below s.cfg.inCap = true := by
  have h := ((State.inv_iff s).mp h).2.1
  simp only [Request.inv, Bool.and_eq_true] at h
  exact ⟨h.1.2, h.2⟩

/-- The buffers right after reset are canonical. -/
theorem reset_buffers_wf : State.reset.req.inBuf.wf = true ∧ State.reset.resp.outBuf.wf = true := ⟨rfl, rfl⟩

end Sys2Proof.Machine
end

