-- ==== Sys2Proof/Laws/Window.lean ====
section
/-! SUPPORT. The register window: which offset names which entry, and what a host write of an entry can do. -/

namespace Sys2Proof.Machine

/-- The offset of an entry (R33, R72); a reserved entry has no one offset. -/
def Entry.offset : Entry → Nat
  | .cmd => 0x00
  | .ctrl => 0x01
  | .status => 0x02
  | .inLen => 0x03
  | .rdInCtrl => 0x04
  | .rdInPresent => 0x05
  | .fmtOut => 0x06
  | .rdOutCtrl => 0x07
  | .rdOutPresent => 0x08
  | .outLen => 0x09
  | .rdInValue s => 0x10 + s.num
  | .rdOutValue s => 0x20 + s.num
  | .inBuf i => 0x100 + i
  | .outBuf i => 0x200 + i
  | .reserved => 0

/-- An offset that names a real entry is that entry's offset, so two offsets never name one entry. -/
theorem offset_of_entryAt {cfg : Config} {off : Nat} {e : Entry} (h : entryAt cfg off = e) (hr : e ≠ .reserved) :
    off = e.offset := by
  unfold entryAt at h
  split_ifs at h with h1 h2 h3 h4 h5
  · unfold lowEntry at h
    split at h <;> subst h <;> first | rfl | exact absurd rfl hr
  · split at h
    · next s hs =>
      subst h
      have := Slot.ofNum_eq_some hs
      simp only [Entry.offset]
      omega
    · exact absurd h.symm hr
  · split at h
    · next s hs =>
      subst h
      have := Slot.ofNum_eq_some hs
      simp only [Entry.offset]
      omega
    · exact absurd h.symm hr
  · subst h
    simp only [Entry.offset]
    omega
  · subst h
    simp only [Entry.offset]
    omega
  · exact absurd h.symm hr

theorem entryAt_inBuf {cfg : Config} {i : Nat} (h : i < cfg.inCap) :
    entryAt cfg (0x100 + i) = .inBuf i := by
  unfold entryAt
  rw [if_neg (by omega), if_neg (by omega), if_neg (by omega), if_pos (by omega)]
  exact congrArg Entry.inBuf (by omega)

theorem entryAt_outBuf {cfg : Config} {i : Nat} (h : i < 26) (hc : cfg.inCap ≤ 255) :
    entryAt cfg (0x200 + i) = .outBuf i := by
  unfold entryAt outCap
  rw [if_neg (by omega), if_neg (by omega), if_neg (by omega), if_neg (by omega), if_pos (by omega)]
  exact congrArg Entry.outBuf (by omega)

theorem entryAt_rdInValue (cfg : Config) (s : Slot) : entryAt cfg (0x10 + s.num) = .rdInValue s := by
  cases s <;> rfl

theorem entryAt_rdOutValue (cfg : Config) (s : Slot) : entryAt cfg (0x20 + s.num) = .rdOutValue s := by
  cases s <;> rfl

theorem lt_inCap_of_entryAt {cfg : Config} {off i : Nat} (h : entryAt cfg off = .inBuf i) : i < cfg.inCap := by
  unfold entryAt at h
  split_ifs at h
  · unfold lowEntry at h
    split at h <;> cases h
  · split at h <;> cases h
  · split at h <;> cases h
  · injection h with h
    omega

/-- A host write outside CTRL changes the request alone, and of it the written entry alone. -/
theorem writeEntry_frame {e : Entry} {v : Value} {s t : State} (he : e ≠ .ctrl) (h : writeEntry e v s = .next t) :
    ∃ q, t = s.withReq q ∧ ∀ e', e' ≠ e → readEntry e' t = readEntry e' s := by
  have self : ∃ q, s = s.withReq q ∧ ∀ e', e' ≠ e → readEntry e' s = readEntry e' s := ⟨s.req, rfl, fun _ _ => rfl⟩
  cases e <;> simp only [writeEntry] at h
  case ctrl => exact absurd rfl he
  case inLen =>
    split at h
    · cases h
    · cases h
      refine ⟨_, rfl, fun e' h' => ?_⟩
      cases e' <;> first | rfl | exact absurd rfl h'
  case rdInValue k =>
    cases h
    refine ⟨_, rfl, fun e' h' => ?_⟩
    cases e' <;> first
      | rfl
      | (simp only [readEntry, State.withReq_req, SlotRegs.get_set]; rw [if_neg]; rintro rfl; exact h' rfl)
  case inBuf i =>
    cases h
    refine ⟨_, rfl, fun e' h' => ?_⟩
    cases e' <;> first
      | rfl
      | (simp only [readEntry, State.withReq_req]; rw [Memory.read_write_ne]; rintro rfl; exact h' rfl)
  case cmd => cases h; refine ⟨_, rfl, fun e' h' => ?_⟩; cases e' <;> first | rfl | exact absurd rfl h'
  case rdInCtrl => cases h; refine ⟨_, rfl, fun e' h' => ?_⟩; cases e' <;> first | rfl | exact absurd rfl h'
  case rdInPresent => cases h; refine ⟨_, rfl, fun e' h' => ?_⟩; cases e' <;> first | rfl | exact absurd rfl h'
  all_goals (cases h; exact self)

/-- A host write never changes the parameters or the response, and while BUSY = 1 it changes the request alone. -/
theorem writeEntry_cases {e : Entry} {v : Value} {s t : State} (h : writeEntry e v s = .next t) :
    t.cfg = s.cfg ∧ t.resp = s.resp ∧ (s.busy = true → ∃ q, t = s.withReq q) := by
  by_cases he : e = .ctrl
  · subst he
    have h := Host.Outcome.next.inj h
    split at h <;> subst h
    · exact ⟨by simp, by simp, fun hb => ⟨s.req, State.go_busy hb⟩⟩
    · exact ⟨rfl, rfl, fun _ => ⟨s.req, rfl⟩⟩
  · obtain ⟨q, rfl, _⟩ := writeEntry_frame he h
    exact ⟨rfl, rfl, fun _ => ⟨q, rfl⟩⟩

/-- Everything a host write can do: it changes the request alone, or it is an accepted GO. -/
theorem writeEntry_inversion {e : Entry} {v : Value} {s t : State} (h : writeEntry e v s = .next t) :
    (∃ q, t = s.withReq q) ∨
      (e = .ctrl ∧ v.getLsbD 0 = true ∧ s.busy = false ∧
        t = { s with snapshot := some s.req, busy := true, done := false }) := by
  by_cases he : e = .ctrl
  · subst he
    have h := Host.Outcome.next.inj h
    by_cases hv : v.getLsbD 0 = true
    · rw [if_pos hv] at h
      subst h
      cases hb : s.busy
      · exact .inr ⟨rfl, hv, rfl, State.go_idle hb⟩
      · exact .inl ⟨s.req, State.go_busy hb⟩
    · rw [if_neg hv] at h
      exact .inl ⟨s.req, h.symm⟩
  · obtain ⟨q, hq, _⟩ := writeEntry_frame he h
    exact .inl ⟨q, hq⟩

/-- A host write never faults. -/
theorem writeEntry_no_fault (e : Entry) (v : Value) (s : State) (f : Fault) : writeEntry e v s ≠ .fault f := by
  cases e <;> simp only [writeEntry, ne_eq, reduceCtorEq, not_false_iff]
  split <;> simp

/-- A host write at an address of the window. -/
theorem busWrite_window (s : State) (off : Nat) (v : Value) : busWrite (s.cfg.windowBase + off) v s = windowWrite off v s := by
  unfold busWrite
  rw [if_neg (by omega), Nat.add_sub_cancel_left]

/-- A host write that does not stop is a write at an address of the window. -/
theorem busWrite_next {s t : State} {addr : Nat} {v : Value} (h : busWrite addr v s = .next t) :
    ∃ off, addr = s.cfg.windowBase + off ∧ windowWrite off v s = .next t := by
  unfold busWrite at h
  split at h
  · cases h
  · exact ⟨addr - s.cfg.windowBase, by omega, h⟩

/-- A host read at an address of the window. -/
theorem busRead_window (s : State) (off : Nat) :
    busRead (s.cfg.windowBase + off) s = .next { s with hostData := windowRead off s } := by
  unfold busRead
  rw [if_neg (by omega), Nat.add_sub_cancel_left]

/-- A host write keeps the invariant. -/
theorem writeEntry_inv {e : Entry} {v : Value} {s t : State} (he : ∀ i, e = .inBuf i → i < s.cfg.inCap)
    (hs : s.inv = true) (h : writeEntry e v s = .next t) : t.inv = true := by
  obtain ⟨h1, h2, h3, h4, h5, h6⟩ := (State.inv_iff s).mp hs
  have key : ∀ q : Request, q.inv s.cfg = true → (s.withReq q).inv = true := fun q hq =>
    (State.inv_iff _).mpr ⟨h1, hq, h3, h4, h5, h6⟩
  have h2' := h2
  simp only [Request.inv, Bool.and_eq_true, decide_eq_true_eq] at h2
  cases e <;> simp only [writeEntry] at h
  case cmd => cases h; exact key _ h2'
  case ctrl =>
    have h := Host.Outcome.next.inj h
    split at h <;> subst h
    · cases hb : s.busy
      · rw [State.go_idle hb, State.inv_iff]
        exact ⟨h1, h2', by simpa using h2', h4, rfl, by simp⟩
      · rwa [State.go_busy hb]
    · exact hs
  case inLen =>
    split at h
    · cases h
    · cases h
      refine key _ ?_
      simp only [Request.inv, Bool.and_eq_true, decide_eq_true_eq]
      exact ⟨⟨by omega, h2.1.2⟩, h2.2⟩
  case rdInCtrl => cases h; exact key _ h2'
  case rdInPresent => cases h; exact key _ h2'
  case rdInValue => cases h; exact key _ h2'
  case inBuf i =>
    cases h
    refine key _ ?_
    simp only [Request.inv, Bool.and_eq_true, decide_eq_true_eq]
    exact ⟨⟨h2.1.1, Memory.write_wf h2.1.2 _ _⟩, Memory.write_below h2.2 _ (he i rfl)⟩
  all_goals (cases h; exact hs)

end Sys2Proof.Machine
end

