-- ==== Sys2Proof/Tests/Slice0.lean ====
section
/-! SUPPORT. Tests: what is ill formed is refused; the words of spec/opcode_table.json decode; one step of each command on a
vector of 95_test_vectors.md; and for each obligation with hypotheses a state and operands that meet them all. -/

namespace Sys2Proof.Tests

open Sys2Proof Sys2Proof.Machine

/-! ### Helpers -/

/-- A request with the bytes `bs` in IN_BUF. -/
def input (bs : List Byte) : Request :=
  { Request.zero with inLen := BitVec.ofNat 8 bs.length, inBuf := Memory.ofBytes bs }

/-- A request with a reading whose listed slots hold the given register values. -/
def reading (slots : List (Slot × Int)) : Request :=
  { Request.zero with
    rdValid := true
    rdPresent := presentMask fun s => slots.any fun p => decide (p.1 = s)
    rdValue := SlotRegs.ofFn fun s => BitVec.ofInt 64 (((slots.find? fun p => decide (p.1 = s)).map Prod.snd).getD 0) }

/-- The state after reset with `q` latched by a GO and the acts `acts` still to come. -/
def pend (q : Request) (acts : List BusAct) : State :=
  { State.reset with req := q, snapshot := some q, busy := true, agenda := acts }

/-- The state an outcome arrives at, if it is a next state. -/
def arrive : Host.Outcome State Fault Refusal → Option State
  | .next s => some s
  | .fault _ => none
  | .refused _ => none

/-- The response a command completes `q` with, under the default parameters. -/
def respondTo (i : Instr) (q : Request) : Option Response := (arrive (exec i (pend q []))).map State.resp

/-- A whole successful reading, in register units. -/
def decoded (tag : Byte) (slots : List (Slot × Int)) : Response :=
  { Response.zero with fmt := tag, rdValid := true, rdPresent := (reading slots).rdPresent, rdValue := (reading slots).rdValue }

/-- A whole successful frame. -/
def framed (tag : Byte) (bs : List Byte) : Response :=
  { Response.zero with fmt := tag, outLen := BitVec.ofNat 8 bs.length, outBuf := Memory.ofBytes bs }

/-- The Format-5 frame of W1 (95 section 1). -/
def w1 : List Byte :=
  [0x05, 0x12, 0xFC, 0x53, 0x94, 0xC3, 0x7C, 0x00, 0x04, 0xFF, 0xFC, 0x04, 0x0C, 0xAC, 0x36, 0x42, 0x00, 0xCD, 0xCB, 0xB8,
    0x33, 0x4C, 0x88, 0x4F]

/-- The reading of W1. -/
def w1Reading : List (Slot × Int) :=
  [(.temperature, 24300000), (.humidity, 53490000), (.pressure, 100044000000), (.accelX, 4000), (.accelY, -4000),
    (.accelZ, 1036000), (.batteryVoltage, 2977000000), (.txPower, 4000000), (.movementCounter, 66),
    (.measurementSequence, 205), (.deviceId, 223991995074639)]

/-- The Format-3 frame of W3. -/
def w3 : List Byte := [0x03, 0x29, 0x1A, 0x1E, 0xCE, 0x1E, 0xFC, 0x18, 0xF9, 0x42, 0x02, 0xCA, 0x0B, 0x53]

/-- The reading of W3. -/
def w3Reading : List (Slot × Int) :=
  [(.temperature, 26300000), (.humidity, 20500000), (.pressure, 102766000000), (.accelX, -1000000), (.accelY, -1726000),
    (.accelZ, 714000), (.batteryVoltage, 2899000000)]

/-- The Format-2 frame of V-F2D2, and the Format-4 frame of V-F4D1. -/
def f2 : List Byte := [0x02, 0x29, 0x1A, 0x1E, 0xCE, 0x1E]
def f4 : List Byte := [0x04, 0x29, 0x1A, 0x00, 0xCE, 0x1E, 0xB4]

/-! ### Ill-formed terms are refused -/

theorem test_wf_config_low : Config.wf { Config.defaults with inCap := 25 } = false := by decide
theorem test_wf_config_high : Config.wf { Config.defaults with inCap := 256 } = false := by decide
theorem test_wf_config_bounds :
    Config.wf { Config.defaults with inCap := 26 } = true ∧ Config.wf { Config.defaults with inCap := 255 } = true := by decide
theorem test_wf_write_wide : BusAct.wf Config.defaults (.write 0x00 0x100#64) = false := by decide
theorem test_wf_write_long_input : BusAct.wf Config.defaults (.write 0x03 33#64) = false := by decide
theorem test_wf_write_below :
    BusAct.wf { Config.defaults with windowBase := 0x1000 } (.write 0xFFF 0#64) = false := by decide
theorem test_wf_read_below : BusAct.wf { Config.defaults with windowBase := 0x1000 } (.read 0xFFF) = false := by decide
theorem test_wf_writeBack_below :
    BusAct.wf { Config.defaults with windowBase := 0x1000 } (.writeBack 0xFFF) = false := by decide
theorem test_wf_wrin_long : ScriptStmt.wf Config.defaults (.wrin (List.replicate 33 0)) = false := by decide
theorem test_wf_wrrd_twice :
    ScriptStmt.wf Config.defaults (.wrrd 5 [(.humidity, 1), (.humidity, 2)]) = false := by decide
theorem test_wf_wrrd_inexact : ScriptStmt.wf Config.defaults (.wrrd 5 [(.movementCounter, 1 / 2)]) = false := by
  decide +kernel
theorem test_wf_wrrd_exact : ScriptStmt.wf Config.defaults (.wrrd 5 [(.temperature, 41 / 2)]) = true := by
  decide +kernel

/-! ### Decoding (30 R101), each word written out from the opcode map -/

theorem test_decode_detect : decode 0b00010000#8 = .ok .detect := rfl
theorem test_decode_decodeAny : decode 0b00010001#8 = .ok .decodeAny := rfl
theorem test_decode_decodeF2 : decode 0b00100010#8 = .ok .decodeF2 := rfl
theorem test_decode_decodeF3 : decode 0b00100011#8 = .ok .decodeF3 := rfl
theorem test_decode_decodeF4 : decode 0b00100100#8 = .ok .decodeF4 := rfl
theorem test_decode_decodeF5 : decode 0b00100101#8 = .ok .decodeF5 := rfl
theorem test_decode_encodeF2 : decode 0b00110010#8 = .ok .encodeF2 := rfl
theorem test_decode_encodeF3 : decode 0b00110011#8 = .ok .encodeF3 := rfl
theorem test_decode_encodeF4 : decode 0b00110100#8 = .ok .encodeF4 := rfl
theorem test_decode_encodeF5 : decode 0b00110101#8 = .ok .encodeF5 := rfl
theorem test_decode_envWrap : decode 0b01000000#8 = .ok .envWrap := rfl
theorem test_decode_envStrip : decode 0b01000001#8 = .ok .envStrip := rfl
/-- V-ILL1 to V-ILL9. -/
theorem test_decode_illegal :
    [0x00#8, 0x12#8, 0x21#8, 0x26#8, 0x31#8, 0x36#8, 0x42#8, 0x50#8, 0xFF#8].all (fun b => decodeCmd b = none) = true := by
  decide
theorem test_decode_reserved_names :
    decode 0x50#8 = .error (.reservedClass 5) ∧ decode 0x26#8 = .error (.reservedSel 2 6) := ⟨rfl, rfl⟩
theorem test_table_word : decodeTableWord 8 0x25 = some .decodeF5 ∧ decodeTableWord 8 0x00 = none := by decide

/-! ### One step of each command (95) -/

/-- V-TX4, as the first step after reset. -/
theorem test_fetch_detect :
    (arrive (step (State.reset.withFetchWord 8 0x10))).map statusByte = some 0x81#8 := by decide
/-- V-TX3. -/
theorem test_fetch_encodeF5 :
    (arrive (step (State.reset.withFetchWord 8 0x35))).map statusByte = some 0x85#8 := by decide
/-- V-TX2: the command word of the reset state is illegal. -/
theorem test_fetch_reset_word :
    (arrive (step (State.reset.withFetchWord 8 0x00))).map statusByte = some 0x87#8 := by decide

/-- V-DET6 and V-DET10. -/
theorem test_detect_tag : respondTo .detect (input [0x05, 0x12]) = some { Response.zero with fmt := 5 } := by decide
theorem test_detect_unknown : respondTo .detect (input [0xFF]) = some { Response.zero with code := 2 } := by decide
/-- V-ANY2 and V-ANY8. -/
theorem test_decodeAny_f3 : respondTo .decodeAny (input w3) = some (decoded 3 w3Reading) := by decide
theorem test_decodeAny_envelope :
    respondTo .decodeAny (input (0x04 :: 0x99 :: w1)) = some { Response.zero with code := 4 } := by decide
/-- W1 and V-F5D9. -/
theorem test_decodeF5_w1 : respondTo .decodeF5 (input w1) = some (decoded 5 w1Reading) := by decide +kernel
theorem test_decodeF5_sentinels :
    respondTo .decodeF5 (input [0x05, 0x80, 0x01, 0x00, 0x01, 0x00, 0x01, 0x80, 0x00, 0xFF, 0xFF, 0x00, 0x01, 0x00, 0x1F,
      0xFF, 0x00, 0x00, 0xFF, 0xFF, 0xFF, 0xFF, 0xFF, 0x00]) =
    some (decoded 5 [(.temperature, -163835000), (.humidity, 2500), (.pressure, 50001000000), (.accelY, -1000),
      (.accelZ, 1000), (.batteryVoltage, 1600000000), (.measurementSequence, 0), (.deviceId, 0xFFFFFFFFFF00)]) := by decide
/-- V-F3D6 and V-F3D10. -/
theorem test_decodeF3_bounds :
    respondTo .decodeF3 (input [0x03, 0xFF, 0x8A, 0x32, 0xFF, 0xFF, 0x80, 0x00, 0x7F, 0xFF, 0x00, 0x00, 0xFF, 0xFF]) =
    some (decoded 3 [(.temperature, -10500000), (.humidity, 127500000), (.pressure, 115535000000), (.accelX, -32768000),
      (.accelY, 32767000), (.accelZ, 0), (.batteryVoltage, 65535000000)]) := by decide
theorem test_decodeF3_fraction :
    (respondTo .decodeF3 (input [0x03, 0x02, 0xFF, 0xFF, 0, 0, 0, 0, 0, 0, 0, 0, 0, 0])).map (fun r => r.rdValue.temperature.toInt)
      = some (-129550000) := by decide
/-- V-F2D2 and V-F2D8. -/
theorem test_decodeF2_fraction :
    respondTo .decodeF2 (input f2) =
      some (decoded 2 [(.temperature, 26300000), (.humidity, 20500000), (.pressure, 102766000000)]) := by decide
theorem test_decodeF2_negative :
    respondTo .decodeF2 (input [0x02, 0x00, 0xFF, 0x63, 0xFF, 0xFF]) =
      some (decoded 2 [(.temperature, -127990000), (.pressure, 115535000000)]) := by decide
/-- V-F4D1 and V-F4D2. -/
theorem test_decodeF4_shifted :
    respondTo .decodeF4 (input f4) =
      some (decoded 4 [(.temperature, 26000000), (.humidity, 20500000), (.pressure, 102766000000), (.coarseId, 45)]) := by
  decide
theorem test_decodeF4_inPlace :
    (arrive (exec .decodeF4 { pend (input f4) [] with cfg := { Config.defaults with f4IdForm := .inPlace } })).map
      (fun s => s.resp.rdValue.coarseId.toInt) = some 180 := by decide
/-- V-F5E3 and V-F5E5. -/
theorem test_encodeF5_w1 : respondTo .encodeF5 (reading w1Reading) = some (framed 5 w1) := by decide
theorem test_encodeF5_domain :
    respondTo .encodeF5 (reading [(.temperature, 163840000)]) = some { Response.zero with code := 6 } := by decide
/-- V-F3E1 and V-F3E12. -/
theorem test_encodeF3_w3 : respondTo .encodeF3 (reading w3Reading) = some (framed 3 w3) := by decide +kernel
theorem test_encodeF3_rounding :
    respondTo .encodeF3 (reading [(.temperature, -26125000), (.accelX, 0), (.accelY, 0), (.accelZ, 0)]) =
      some (framed 3 [0x03, 0x00, 0x9A, 0x0D, 0, 0, 0, 0, 0, 0, 0, 0, 0, 0]) := by decide +kernel
/-- V-F2E1 and V-F2E7. -/
theorem test_encodeF2_drops_fraction :
    respondTo .encodeF2 (reading [(.temperature, 26300000), (.humidity, 20500000), (.pressure, 102766000000)]) =
      some (framed 2 [0x02, 0x29, 0x1A, 0x00, 0xCE, 0x1E]) := by decide
theorem test_encodeF2_sign :
    respondTo .encodeF2 (reading [(.temperature, -500000)]) = some (framed 2 [0x02, 0x00, 0x80, 0x00, 0x00, 0x00]) := by
  decide
/-- V-F4E1 and V-F4E4. -/
theorem test_encodeF4_frame :
    respondTo .encodeF4 (reading [(.temperature, 26300000), (.humidity, 20500000), (.pressure, 102766000000), (.coarseId, 45)])
      = some (framed 4 f4) := by decide
theorem test_encodeF4_domain :
    respondTo .encodeF4 (reading [(.coarseId, 64)]) = some { Response.zero with code := 6 } := by decide
/-- V-ENV1 and V-ENV3. -/
theorem test_envWrap_w1 : respondTo .envWrap (input w1) = some (framed 0 (0x04 :: 0x99 :: w1)) := by decide
theorem test_envWrap_length :
    respondTo .envWrap (input (0x04 :: 0x99 :: w1)) = some { Response.zero with code := 4 } := by decide
/-- V-ENV7 and V-ENV6. -/
theorem test_envStrip_prefix : respondTo .envStrip (input (0x99 :: 0x04 :: w1)) = some (framed 0 w1) := by decide
theorem test_envStrip_length : respondTo .envStrip (input w1) = some { Response.zero with code := 4 } := by decide

/-! ### The host's accesses -/

/-- V-TX5: a GO while BUSY = 1 is ignored, and IN_BUF may be written. -/
theorem test_go_while_busy : arrive (windowWrite 0x01 1 (pend (input w1) [])) = some (pend (input w1) []) := by decide
theorem test_snapshot_survives_write :
    (arrive (windowWrite 0x101 0 (pend (input w1) []))).map
      (fun s => (s.snapshot, s.req.inBuf.read 1)) = some (some (input w1), 0) := by decide
theorem test_below_window :
    (match busRead 0xFFF { State.reset with cfg := { Config.defaults with windowBase := 0x1000 } } with
      | .refused r => decide (r = .accessOutsideWindow)
      | .next _ => false
      | .fault _ => false) = true := by decide
theorem test_no_transaction :
    (match exec .detect State.reset with
      | .fault r => decide (r = .noPendingTransaction)
      | .next _ => false
      | .refused _ => false) = true := by decide

/-! ### For each obligation with hypotheses, a state and operands that meet them all -/

theorem arrive_eq {o : Host.Outcome State Fault Refusal} {t : State} (h : arrive o = some t) : o = .next t := by
  cases o with
  | next s => exact congrArg Host.Outcome.next (Option.some.inj h)
  | fault r => cases h
  | refused r => cases h

theorem arrive_isSome {o : Host.Outcome State Fault Refusal} (h : (arrive o).isSome = true) : ∃ t, o = .next t := by
  obtain ⟨t, h⟩ := Option.isSome_iff_exists.mp h
  exact ⟨t, arrive_eq h⟩

/-- W1 with its command byte: DECODE.F5. -/
def w1Command : Request := { input w1 with cmd := 0x25 }

/-- The state with every reading register of W1 present. -/
def w1Read : Request := reading w1Reading

theorem witness_ResetActClearsTheBlock :
    codeReserved (pend (input w1) [.reset]).resp.code = false ∧ (pend (input w1) [.reset]).agenda = [.reset] := by decide

theorem witness_CommandWordsOfTheMap :
    0x36#8 ∉ [0x10#8, 0x11#8, 0x22#8, 0x23#8, 0x24#8, 0x25#8, 0x32#8, 0x33#8, 0x34#8, 0x35#8, 0x40#8, 0x41#8] := by decide

theorem witness_StepRunsTheSnapshotCommand :
    codeReserved (pend w1Command []).resp.code = false ∧ (pend w1Command []).snapshot = some w1Command ∧
      decodeCmd w1Command.cmd = some .decodeF5 ∧ (pend w1Command []).agenda = [] ∧
      (pend w1Command [.codec]).agenda = [.codec] ∧ (pend w1Command [.waitDone]).agenda = [.waitDone] ∧
      (pend w1Command [.waitDone]).done = false := by decide

/-- The command word of the reset state. -/
theorem witness_IllegalCodeCompletesWithError :
    (pend Request.zero []).snapshot = some Request.zero ∧
      Request.zero.cmd ∉ [0x10#8, 0x11#8, 0x22#8, 0x23#8, 0x24#8, 0x25#8, 0x32#8, 0x33#8, 0x34#8, 0x35#8, 0x40#8, 0x41#8] ∧
      codeReserved (pend Request.zero []).resp.code = false ∧ (pend Request.zero []).agenda = [] := by decide

theorem witness_EveryStepKeepsTheInvariant :
    (pend w1Command []).inv = true ∧ ∃ t, step (pend w1Command []) = .next t :=
  ⟨by decide, arrive_isSome (by decide)⟩

theorem witness_StopsComeFromHostAccessesOnly :
    (pend w1Command [.write 0x03 33]).inv = true ∧
      step (pend w1Command [.write 0x03 33]) = .refused .inLenBeyondCapacity := ⟨by decide, rfl⟩

theorem witness_DutifulActsNeverStop :
    (pend w1Command [.write 0x03 32]).inv = true ∧ BusAct.wf (pend w1Command []).cfg (.write 0x03 32) = true ∧
      ∀ addr, BusAct.write 0x03 32 ≠ .writeBack addr := ⟨by decide, by decide, by simp⟩

theorem witness_ReservedStatusCodeFaults :
    8 ≤ ({ State.reset with resp := { Response.zero with code := 8 } } : State).resp.code.toNat ∧
      8 ≤ ({ State.reset with resp := { Response.zero with code := 15 } } : State).resp.code.toNat := by decide

theorem witness_GoIsAcceptedOnlyWhileIdle :
    (1#64).getLsbD 0 = true ∧ State.reset.busy = false ∧ (pend w1Command []).busy = true ∧ (2#64).getLsbD 0 = false := by
  decide

theorem witness_AccessesHaveNoOtherEffect :
    (codeReserved (pend w1Command [.read 0x200]).resp.code = false ∧
      (pend w1Command [.read 0x200]).agenda = .read ((pend w1Command []).cfg.windowBase + 0x200) :: []) ∧
    (0x100 ≠ 0x01 ∧ ∃ t, windowWrite 0x100 0x05 State.reset = .next t) := ⟨by decide, by decide, arrive_isSome (by decide)⟩

theorem witness_WrittenEntriesReadBack :
    (pend w1Command []).inv = true ∧ ((32#64).setWidth 8).toNat ≤ (pend w1Command []).cfg.inCap ∧
      0 < 12 ∧ 11 < 12 ∧ 0 < (pend w1Command []).cfg.inCap ∧ 31 < (pend w1Command []).cfg.inCap := by decide

/-- Every boundary of the two lists of ranges, and that no offset lies in both lists. -/
theorem witness_ReservedAndReadOnlyIgnoreWrites :
    State.reset.cfg.wf = true ∧ 0x100 + State.reset.cfg.inCap = 0x120 ∧
    [0x0A, 0x0F, 0x1C, 0x1F, 0x2C, 0xFF, 0x120, 0x1FF, 0x21A, 0x21B].all (fun off =>
      decide (0x0A ≤ off ∧ off ≤ 0x0F ∨ 0x1C ≤ off ∧ off ≤ 0x1F ∨ 0x2C ≤ off ∧ off ≤ 0xFF ∨
        0x100 + State.reset.cfg.inCap ≤ off ∧ off ≤ 0x1FF ∨ 0x21A ≤ off)) = true ∧
    [0x02, 0x06, 0x09, 0x20, 0x2B, 0x200, 0x219].all (fun off =>
      decide (off = 0x02 ∨ 0x06 ≤ off ∧ off ≤ 0x09 ∨ 0x20 ≤ off ∧ off ≤ 0x2B ∨ 0x200 ≤ off ∧ off ≤ 0x219)) = true := by
  decide

theorem witness_InLenBeyondCapacityIsRefused :
    codeReserved (pend w1Command [.write 0x03 33]).resp.code = false ∧
      (pend w1Command [.write 0x03 33]).agenda = .write ((pend w1Command []).cfg.windowBase + 0x03) 33 :: [] ∧
      (pend w1Command []).cfg.inCap < ((33#64).setWidth 8).toNat := by decide

theorem witness_HostAccessesLeaveTheTransactionAlone :
    (pend w1Command []).busy = true ∧ (∃ t, step (pend w1Command [.write 0x01 1]) = .next t) ∧
      (∃ t, step (pend w1Command [.read 0x02]) = .next t) ∧ ∃ t, step (pend w1Command [.writeBack 0x101]) = .next t :=
  ⟨rfl, arrive_isSome (by decide), arrive_isSome (by decide), arrive_isSome (by decide)⟩

/-- A completion and a reset that each change the response. -/
theorem witness_ResponseChangesOnlyAtCompletionOrReset :
    (∃ t, step (pend Request.zero []) = .next t ∧ t.resp ≠ (pend Request.zero []).resp) ∧
    ∃ t, step { State.reset with resp := tagResponse 5, agenda := [.reset] } = .next t ∧ t.resp ≠ tagResponse 5 :=
  ⟨⟨(pend Request.zero []).raise .illegalCommand, rfl, by decide⟩, ⟨State.reset, rfl, by decide⟩⟩

/-- An accepted GO, a completion, and a reset that abandons the transaction. -/
theorem witness_OnlyGoCompletionAndResetChangeTheHandshake :
    (∃ t, step { State.reset with agenda := [.write 0x01 1] } = .next t ∧ t.busy ≠ State.reset.busy) ∧
    (∃ t, step (pend Request.zero []) = .next t ∧ t.done ≠ (pend Request.zero []).done) ∧
    ∃ t, step (pend w1Command [.reset]) = .next t ∧ t.snapshot ≠ (pend w1Command [.reset]).snapshot :=
  ⟨⟨_, rfl, by decide⟩, ⟨_, rfl, by decide⟩, ⟨_, rfl, by decide⟩⟩

theorem witness_RequestsAndParametersAreTheHosts :
    ∃ t, step { State.reset with agenda := [.write 0x00 0x25] } = .next t ∧ t.req ≠ State.reset.req :=
  ⟨{ State.reset with req := { Request.zero with cmd := 0x25 } }, rfl, by decide⟩

theorem witness_PendingTransactionsEnd :
    (pend w1Command []).inv = true ∧ (pend w1Command []).busy = true ∧ (pend w1Command []).agenda = [] ∧
      (pend w1Command [.waitDone]).inv = true ∧ (pend w1Command [.waitDone]).agenda = [.waitDone] := by decide

/-- Every command completes from some state. -/
theorem witness_CommandsNeverWriteTheRequest (i : Instr) : ∃ t, exec i (pend w1Command []) = .next t := by
  cases i <;> exact ⟨_, rfl⟩

/-- Two states with one snapshot and different requests, responses and agendas. -/
theorem witness_SameSnapshotSameResponse :
    (pend w1Command []).cfg = { pend w1Command [.reset] with req := Request.zero, resp := tagResponse 5 }.cfg ∧
      (pend w1Command []).snapshot = some w1Command ∧
      { pend w1Command [.reset] with req := Request.zero, resp := tagResponse 5 }.snapshot = some w1Command ∧
      (∃ t, codecMove (pend w1Command []) = .next t) ∧
      ∃ t, codecMove { pend w1Command [.reset] with req := Request.zero, resp := tagResponse 5 } = .next t :=
  ⟨rfl, rfl, rfl, ⟨_, rfl⟩, ⟨_, rfl⟩⟩

/-- An illegal code, and DETECT of an empty input. -/
theorem witness_ErrorsLeaveNothingElse :
    (∃ t, codecMove (pend Request.zero []) = .next t ∧ t.resp.code ≠ 0) ∧
      ∃ t, codecMove (pend { Request.zero with cmd := 0x10 } []) = .next t ∧ t.resp.code ≠ 0 :=
  ⟨⟨(pend Request.zero []).raise .illegalCommand, rfl, by decide⟩,
    ⟨(pend { Request.zero with cmd := 0x10 } []).raise .emptyInput, rfl, by decide⟩⟩

/-- W1, and W1 with other bytes after it in IN_BUF. -/
theorem witness_BytesBeyondTheLengthAreNeverRead :
    (pend (input w1) []).snapshot = some (input w1) ∧ Memory.ofBytes (w1 ++ [0xAB]) ≠ (input w1).inBuf ∧
      ∀ k < (input w1).inLen.toNat, (Memory.ofBytes (w1 ++ [0xAB])).read k = (input w1).byte k := by decide

theorem witness_CodesEachCommandRaises (i : Instr) : ∃ t, exec i (pend Request.zero []) = .next t := by
  cases i <;> exact ⟨_, rfl⟩

/-- A successful decode, encode, wrap and detection: each clause's commands among them. -/
theorem witness_UnwrittenResponsesTakeDefaults :
    [respondTo .decodeF5 (input w1), respondTo .encodeF5 w1Read, respondTo .envWrap (input w1), respondTo .detect (input w1)].all
      (fun r => decide (r.map Response.code = some 0)) = true := by decide +kernel

theorem witness_OnlyEncodesReadValid :
    (Instr.encodeF3 ∈ [Instr.encodeF2, .encodeF3, .encodeF4, .encodeF5] ∧ (pend w1Command []).snapshot = some w1Command ∧
      w1Command.rdValid = false) ∧ Instr.decodeF5 ∉ [Instr.encodeF2, .encodeF3, .encodeF4, .encodeF5] := by decide

/-- Two requests that differ in a slot Format-5 has not. -/
theorem witness_ForeignSlotsAreIgnored :
    (pend w1Read []).snapshot = some w1Read ∧ w1Read.rdValid = (reading ((.coarseId, 5) :: w1Reading)).rdValid ∧
      w1Read ≠ reading ((.coarseId, 5) :: w1Reading) ∧
      (∀ k ∈ [Slot.temperature, .humidity, .pressure, .accelX, .accelY, .accelZ, .batteryVoltage, .txPower, .movementCounter,
        .measurementSequence, .deviceId], w1Read.slotIn k = (reading ((.coarseId, 5) :: w1Reading)).slotIn k) ∧
      ∃ t, exec .decodeF5 (pend w1Read []) = .next t := ⟨rfl, rfl, by decide +kernel, by decide +kernel, ⟨_, rfl⟩⟩

theorem witness_DetectClassifiesByTheTag :
    (input []).inLen = 0 ∧ ((input [0x02]).inLen ≠ 0 ∧ (input [0x02]).byte 0 ∈ [0x02#8, 0x03#8, 0x04#8, 0x05#8]) ∧
      ((input [0x06]).inLen ≠ 0 ∧ (input [0x06]).byte 0 ∉ [0x02#8, 0x03#8, 0x04#8, 0x05#8]) := by decide

/-- One byte too long, one too short, the wrong tag, and W1. -/
theorem witness_DecodeF5ReportsEveryField :
    (input (0 :: w1)).inLen.toNat ≠ 24 ∧ (input (w1.drop 1)).inLen.toNat ≠ 24 ∧
      ((input (0x03 :: w1.drop 1)).inLen.toNat = 24 ∧ (input (0x03 :: w1.drop 1)).byte 0 ≠ 0x05#8) ∧
      (pend (input w1) []).snapshot = some (input w1) ∧ (input w1).inLen.toNat = 24 ∧ (input w1).byte 0 = 0x05#8 := by
  decide

/-- One byte too long, one too short, the wrong tag, and W3. -/
theorem witness_DecodeF3ReportsEveryField :
    (input (0 :: w3)).inLen.toNat ≠ 14 ∧ (input (w3.drop 1)).inLen.toNat ≠ 14 ∧
      ((input (0x05 :: w3.drop 1)).inLen.toNat = 14 ∧ (input (0x05 :: w3.drop 1)).byte 0 ≠ 0x03#8) ∧
      (pend (input w3) []).snapshot = some (input w3) ∧ (input w3).inLen.toNat = 14 ∧ (input w3).byte 0 = 0x03#8 := by
  decide

/-- Each frame given to the other's decode, the wrong tags, and the two frames. -/
theorem witness_DecodeF2AndF4ReportEveryField :
    (Instr.decodeF2, 0x02#8, 6) ∈ [(Instr.decodeF2, 0x02#8, 6), (.decodeF4, 0x04#8, 7)] ∧
      (input f4).inLen.toNat ≠ 6 ∧ (input (f2.drop 1)).inLen.toNat ≠ 6 ∧
      ((input (0x03 :: f2.drop 1)).inLen.toNat = 6 ∧ (input (0x03 :: f2.drop 1)).byte 0 ≠ 0x02#8) ∧
      ((input f2).inLen.toNat = 6 ∧ (input f2).byte 0 = 0x02#8) ∧
      (Instr.decodeF4, 0x04#8, 7) ∈ [(Instr.decodeF2, 0x02#8, 6), (.decodeF4, 0x04#8, 7)] ∧
      (input f2).inLen.toNat ≠ 7 ∧ (input (0 :: f4)).inLen.toNat ≠ 7 ∧
      ((input (0x02 :: f4.drop 1)).inLen.toNat = 7 ∧ (input (0x02 :: f4.drop 1)).byte 0 ≠ 0x04#8) ∧
      (input f4).inLen.toNat = 7 ∧ (input f4).byte 0 = 0x04#8 := by decide

theorem witness_DecodeAnyDispatchesByTag :
    (input []).inLen = 0 ∧ (input f2).inLen ≠ 0 ∧ (input f2).byte 0 = 0x02#8 ∧ (input w3).inLen ≠ 0 ∧
      (input w3).byte 0 = 0x03#8 ∧ (input f4).inLen ≠ 0 ∧ (input f4).byte 0 = 0x04#8 ∧ (input w1).inLen ≠ 0 ∧
      (input w1).byte 0 = 0x05#8 ∧ (input [0x06]).byte 0 ∉ [0x02#8, 0x03#8, 0x04#8, 0x05#8] := by decide

theorem witness_DecodeAnyCompletesOnFrames :
    ((input f2).byte 0, (input f2).inLen.toNat) = (0x02#8, 6) ∧ ((input w3).byte 0, (input w3).inLen.toNat) = (0x03#8, 14) ∧
      ((input f4).byte 0, (input f4).inLen.toNat) = (0x04#8, 7) ∧ ((input w1).byte 0, (input w1).inLen.toNat) = (0x05#8, 24) := by
  decide

/-- No reading; a reading one raw step too warm; and the warmest and coldest that fit (V-F5E4 to V-F5E8). -/
theorem witness_EncodeF5WritesTheFrame :
    Request.zero.rdValid = false ∧ ¬ fitsF5 (reading [(.temperature, 163840000)]) ∧
      fitsF5 (reading [(.temperature, 163835000)]) ∧ fitsF5 (reading [(.temperature, -163844999)]) := by
  unfold fitsF5 within
  decide +kernel

/-- V-F3E13 and V-F3E14: the warmest temperature that fits, and the next. -/
theorem witness_EncodeF3WritesTheFrame :
    Request.zero.rdValid = false ∧
      ¬ fitsF3 (reading [(.temperature, 127995000), (.accelX, 0), (.accelY, 0), (.accelZ, 0)]) ∧
      fitsF3 (reading [(.temperature, 127994000), (.accelX, 0), (.accelY, 0), (.accelZ, -32768000)]) := by
  refine ⟨rfl, fun h => ?_, ⟨?_, ?_⟩, fun v hv => ?_, ⟨0, ?_, ?_⟩, ⟨0, ?_, ?_⟩, ⟨-32768 / 1000, ?_, ?_⟩, ?_⟩
  · exact absurd (h.2.1 (127995 / 1000) (by decide +kernel)) (by decide +kernel)
  · unfold within; decide +kernel
  · unfold within; decide +kernel
  · obtain rfl : (127994 / 1000 : ℚ) = v := Option.some.inj (Eq.trans (by decide +kernel) hv)
    decide +kernel
  · decide +kernel
  · unfold within; decide +kernel
  · decide +kernel
  · unfold within; decide +kernel
  · decide +kernel
  · unfold within; decide +kernel
  · unfold within; decide +kernel

/-- V-F2E11 and V-F2E13. -/
theorem witness_EncodeF2WritesTheFrame :
    Request.zero.rdValid = false ∧ ¬ fitsF2 (reading [(.temperature, 128000000)]) ∧
      fitsF2 (reading [(.temperature, 127990000)]) := by
  refine ⟨rfl, fun h => ?_, ⟨?_, ?_⟩, fun v hv => ?_⟩
  · exact absurd (h.2 128 (by decide +kernel)) (by decide +kernel)
  · unfold within; decide +kernel
  · unfold within; decide +kernel
  · obtain rfl : (12799 / 100 : ℚ) = v := Option.some.inj (Eq.trans (by decide +kernel) hv)
    decide +kernel

/-- V-F4E3 and V-F4E4. -/
theorem witness_EncodeF4WritesTheFrame :
    Request.zero.rdValid = false ∧ ¬ fitsF4 Config.defaults (reading [(.coarseId, 64)]) ∧
      fitsF4 Config.defaults (reading [(.coarseId, 63)]) := by
  refine ⟨rfl, fun h => ?_, ⟨⟨?_, ?_⟩, fun v hv => ?_⟩, fun v hv => ?_⟩
  · exact absurd (h.2 64 (by decide +kernel)) (by unfold within; decide +kernel)
  · unfold within; decide +kernel
  · unfold within; decide +kernel
  · exact absurd hv.symm (by rw [show (reading [(.coarseId, 63)]).valueIn .temperature = none by decide +kernel]; simp)
  · obtain rfl : (63 : ℤ) = v := Option.some.inj (Eq.trans (by decide +kernel) hv)
    unfold within; decide

theorem witness_EnvWrapPrependsThePrefix :
    (input w1).inLen.toNat = 24 ∧ (input (0 :: w1)).inLen.toNat ≠ 24 ∧ (input (w1.drop 1)).inLen.toNat ≠ 24 := by decide

theorem witness_EnvStripRemovesThePrefix :
    (input (0x99 :: 0x04 :: w1)).inLen.toNat = 26 ∧ (input (0 :: w1)).inLen.toNat ≠ 26 ∧
      (input (0 :: 0 :: 0 :: w1)).inLen.toNat ≠ 26 := by decide

theorem witness_QuantizersTruncateTheExactQuotient : f5T ∈ linearFields ∧ f24P ∈ linearFields := by decide

/-- The warmest temperature that fits and the coldest, which collides with the sentinel; a pressure below its offset; and a
battery voltage at the top of its range, which collides: each with the bytes its encode writes and a buffer that holds them. -/
theorem witness_LinearQuantizationErrorIsUnderAStep :
    (f5T ∈ linearFields ∧ (reading [(.temperature, 163839999)]).slotIn f5T.slot = some 163839999 ∧ f5T.offset ≤ 163839999 ∧
      f5T.lo ≤ f5T.quantize 163839999 ∧ f5T.quantize 163839999 ≤ f5T.hi ∧ f5T.sentinel ≠ some (f5T.quantize 163839999) ∧
      f5T.encode (reading [(.temperature, 163839999)]) = some [0x7F, 0xFF] ∧
      (Memory.ofBytes [0x05, 0x7F, 0xFF]).read (f5T.base + 0) = 0x7F ∧
      (Memory.ofBytes [0x05, 0x7F, 0xFF]).read (f5T.base + 1) = 0xFF) ∧
    (f5T.lo ≤ f5T.quantize (-163844999) ∧ -163844999 ≤ f5T.offset ∧ f5T.sentinel = some (f5T.quantize (-163844999))) ∧
    (f5P ∈ linearFields ∧ 49999500000 ≤ f5P.offset ∧ f5P.lo ≤ f5P.quantize 49999500000 ∧
      f5P.quantize 49999500000 ≤ f5P.hi ∧ f5P.sentinel ≠ some (f5P.quantize 49999500000)) ∧
    (f5BAT ∈ linearFields ∧ f5BAT.quantize 3647999999 ≤ f5BAT.hi ∧ f5BAT.sentinel = some (f5BAT.quantize 3647999999) ∧
      powerPart (reading [(.batteryVoltage, 3647999999), (.txPower, 4000000)]) = some [0xFF, 0xF6]) := by decide

/-- V-F3E9 and V-F2E5, decoded again. -/
theorem witness_TemperatureErrorIsBounded :
    smagEncodeFrac .value 26996000 = some [0x1B, 0x00] ∧ smagDecode 0x1B 0x00 true = some 27000000 ∧
      smagEncodeWhole .value (-26900000) = some [0x9A, 0x00] ∧ smagDecode 0x9A 0x00 false = some (-26000000) := by decide

/-- W1 decoded, and its reading latched for the encode. -/
theorem witness_FormatFiveRoundTripsEveryByte :
    (input w1).inLen.toNat = 24 ∧ (input w1).byte 0 = 0x05#8 ∧ ∃ t, exec .decodeF5 (pend (input w1) []) = .next t ∧
      w1Read.rdValid = t.resp.rdValid ∧ w1Read.rdPresent = t.resp.rdPresent ∧ w1Read.rdValue = t.resp.rdValue :=
  ⟨by decide, by decide, _, rfl, by decide +kernel, by decide +kernel, by decide +kernel⟩

/-- W1 wrapped, and the 26 bytes latched for the strip. -/
theorem witness_StripUndoesWrap :
    (input w1).inLen.toNat = 24 ∧ ∃ t, exec .envWrap (pend (input w1) []) = .next t ∧
      (input (0x04 :: 0x99 :: w1)).inLen = t.resp.outLen ∧ (input (0x04 :: 0x99 :: w1)).inBuf = t.resp.outBuf :=
  ⟨by decide, _, rfl, by decide +kernel, by decide +kernel⟩

theorem witness_MnemonicRunsItsCommand :
    ({ State.reset with agenda := ScriptStmt.expand 0 (.run .detect) } : State).inv = true ∧ State.reset.busy = false ∧
      State.reset.cfg.windowBase = 0 := by decide

/-- The longest input IN_BUF takes. -/
theorem witness_WrinLoadsTheInput :
    ({ State.reset with agenda := ScriptStmt.expand 0 (.wrin (List.replicate 32 0xAB)) } : State).inv = true ∧
      (List.replicate 32 0xAB#8).length ≤ State.reset.cfg.inCap := by decide

/-- An output as long as OUT_BUF. -/
theorem witness_MoveChainsOutputToInput :
    ({ State.reset with resp := framed 0 (0x04 :: 0x99 :: w1), agenda := [.move] } : State).inv = true ∧
      (framed 0 (0x04 :: 0x99 :: w1)).outLen.toNat = 26 := by decide

/-- DECODE.ENV after a strip that ended in InvalidLength, and ENCODE.ENV after an encode that ended in OK, a reset to follow. -/
theorem witness_PseudoInstructionsStopAtAnError :
    (ScriptStmt.expand 0 .decodeEnv).drop (runActs 0 .envStrip).length = [.stopUnlessOk 4, .move] ++ runActs 0 .decodeF5 ∧
      (pend (input w1) [.reset]).cfg.windowBase = 0 ∧
      codeReserved (errorResponse .invalidLength).code = false ∧ (errorResponse .invalidLength).code ≠ 0 ∧
      (ScriptStmt.expand 0 .encodeEnv).drop (runActs 0 .encodeF5).length = [.stopUnlessOk 4, .move] ++ runActs 0 .envWrap ∧
      codeReserved (framed 5 w1).code = false ∧ (framed 5 w1).code = 0 := by decide

/-- Two instances, of which the second steps; and another bank that agrees on it. -/
theorem witness_InstancesAreIndependent :
    (∃ after, Bank.step 1 [State.reset, pend w1Command []] = .next after) ∧
      [pend w1Command [], pend w1Command [], State.reset][1]? = [State.reset, pend w1Command []][1]? ∧
      ∃ after, Bank.step 2 [State.reset, pend w1Command []] = .next after := ⟨⟨_, rfl⟩, rfl, ⟨_, rfl⟩⟩

end Sys2Proof.Tests
end

section
/-! PROOFS. MemRead of 00_scope.md R12 as a big-endian sum. -/

namespace Sys2Proof.Machine

/-- Settles O42, by induction on the number of bytes: one more byte multiplies the weight of every earlier byte by 256 and
enters with weight 1. -/
theorem memReadIsBigEndian : Obligations.MemReadIsBigEndian := by
  intro m a n
  induction n with
  | zero => simp
  | succ n ih =>
    have weight_succ : ∀ k ∈ Finset.range n,
        (m.read (a + k)).toNat * 256 ^ (n - 1 - k) * 256 = (m.read (a + k)).toNat * 256 ^ (n - k) := fun k hk => by
      have hpos : n - k ≠ 0 := Nat.sub_ne_zero_of_lt (Finset.mem_range.mp hk)
      rw [mul_assoc, Nat.sub_right_comm, pow_sub_one_mul hpos]
    rw [memRead_succ, ih, Finset.sum_mul, Finset.sum_congr rfl weight_succ, Finset.sum_range_succ, Nat.add_sub_cancel,
      Nat.sub_self, pow_zero, mul_one]

end Sys2Proof.Machine
end

section
/-! PROOFS. What one step can do, said once as an inversion lemma, and the statements of 10_state.md over every step: the
invariant, the transaction, the response and the handshake. -/

namespace Sys2Proof.Machine

/-- What a step of `s` can do to the block: nothing, a host write at a window offset, the completion of the pending
transaction, or a reset. The agenda and the value the host holds are left open where no statement speaks of them. -/
inductive StepCase (s : State) : State → Prop where
  | quiet (agenda : List BusAct) (hostData : Value) :
      StepCase s { s with agenda := agenda, hostData := hostData }
  | write {off : Nat} {v : Value} {rest : List BusAct} {t : State}
      (act : s.agenda = .write (s.cfg.windowBase + off) v :: rest ∨
        s.agenda = .writeBack (s.cfg.windowBase + off) :: rest ∧ s.hostData = v)
      (written : windowWrite off v { s with agenda := rest } = .next t) : StepCase s t
  | completion {q : Request} {r : Response} (agenda : List BusAct) (pending : s.snapshot = some q) (shape : Shape r) :
      StepCase s (State.complete r { s with agenda := agenda })
  | reset {rest : List BusAct} (act : s.agenda = .reset :: rest) :
      StepCase s (State.resetBlock { s with agenda := rest })

/-- A move of the codec unit, whatever agenda the host has left. -/
theorem codecMove_stepCase {s t : State} {agenda : List BusAct} (h : codecMove { s with agenda := agenda } = .next t) :
    StepCase s t := by
  obtain rfl | ⟨q, r, hq, hr, rfl⟩ := codecMove_cases h
  · exact .quiet agenda s.hostData
  · exact .completion agenda hq hr

/-- A state that steps has no reserved status code (R301). -/
theorem code_of_step_next {s t : State} (h : step s = .next t) : codeReserved s.resp.code = false := by
  by_contra hc
  simp [step, moveOnce, Bool.eq_true_of_not_eq_false hc] at h

/-- The inversion lemma of hostMove, in the state that still holds the act. -/
theorem hostMove_stepCase {s t : State} {a : BusAct} {rest : List BusAct} (ha : s.agenda = a :: rest)
    (h : hostMove a { s with agenda := rest } = .next t) : StepCase s t := by
  cases a with
  | write addr v =>
    obtain ⟨off, rfl, hw⟩ := busWrite_next h
    exact .write (.inl ha) hw
  | read addr =>
    simp only [hostMove, busRead] at h
    split at h
    · cases h
    · cases h
      exact .quiet rest _
  | writeBack addr =>
    obtain ⟨off, rfl, hw⟩ := busWrite_next h
    exact .write (.inr ⟨ha, rfl⟩) hw
  | codec => exact codecMove_stepCase h
  | waitDone =>
    simp only [hostMove] at h
    split at h
    · cases h
      exact .quiet rest _
    · exact codecMove_stepCase h
  | move =>
    cases h
    exact .quiet _ _
  | stopUnlessOk n =>
    simp only [hostMove] at h
    split at h
    · cases h
      exact .quiet rest _
    · cases h
      exact .quiet (rest.drop n) _
  | reset =>
    cases h
    exact .reset ha

/-- The inversion lemma of step. -/
theorem step_cases {s t : State} (h : step s = .next t) : StepCase s t := by
  have hc := code_of_step_next h
  cases ha : s.agenda with
  | nil =>
    rw [step_idle hc ha] at h
    exact codecMove_stepCase (agenda := s.agenda) h
  | cons a rest =>
    rw [step_act hc ha] at h
    exact hostMove_stepCase ha h

/-! ### The invariant -/

/-- The request registers after a reset respect the host's duties under any parameters. -/
theorem Request.zero_inv (cfg : Config) : Request.zero.inv cfg = true := by
  simp [Request.inv, Request.zero, Memory.wf, Memory.wfFrom, Memory.below]

/-- The response registers after a reset are of the form every completion leaves. -/
theorem Response.zero_inv : Response.zero.inv = true := by decide

/-- A completion with a response in form keeps the invariant (R48). -/
theorem State.complete_inv {s : State} {r : Response} (hs : s.inv = true) (hr : r.inv = true) :
    (s.complete r).inv = true := by
  obtain ⟨hcfg, hreq, -, -, -, -⟩ := (State.inv_iff s).mp hs
  exact (State.inv_iff _).mpr ⟨hcfg, hreq, by simp, hr, rfl, by simp⟩

/-- A reset leaves the invariant (R340). -/
theorem State.resetBlock_inv {s : State} (hs : s.inv = true) : s.resetBlock.inv = true := by
  obtain ⟨hcfg, -, -, -, -, -⟩ := (State.inv_iff s).mp hs
  exact (State.inv_iff _).mpr ⟨hcfg, Request.zero_inv _, by simp, Response.zero_inv, rfl, by simp⟩

/-- The invariant speaks of the block only, not of the host's side. -/
theorem State.inv_withHost {s : State} (hs : s.inv = true) (agenda : List BusAct) (hostData : Value) :
    ({ s with agenda := agenda, hostData := hostData } : State).inv = true := hs

/-- Settles O8, by the cases of a step: a write keeps the invariant entry by entry, a completion by its response's shape. -/
theorem everyStepKeepsTheInvariant : Obligations.EveryStepKeepsTheInvariant := by
  intro s t hs h
  cases step_cases h with
  | quiet agenda hostData => exact State.inv_withHost hs agenda hostData
  | write _ written => exact writeEntry_inv (fun _ => lt_inCap_of_entryAt) (State.inv_withHost hs _ _) written
  | completion agenda _ shape => exact State.complete_inv (State.inv_withHost hs agenda s.hostData) shape.inv
  | reset _ => exact State.resetBlock_inv (State.inv_withHost hs _ s.hostData)

/-- Settles O3. -/
theorem resetMeetsTheInvariant : Obligations.ResetMeetsTheInvariant := by
  have hnone : ∀ q, State.reset.snapshot = some q → q.inv State.reset.cfg = true := by simp [State.reset]
  exact (State.inv_iff _).mpr ⟨rfl, Request.zero_inv _, hnone, Response.zero_inv, rfl, by simp [State.reset]⟩

/-! ### The transaction -/

/-- A host write while BUSY = 1 reaches the request at most (R48, R49). -/
theorem busWrite_busy {s t : State} {addr : Nat} {v : Value} (hb : s.busy = true) (h : busWrite addr v s = .next t) :
    ∃ q, t = s.withReq q := by
  obtain ⟨_, _, hw⟩ := busWrite_next h
  exact (writeEntry_cases hw).2.2 hb

/-- A host read reaches the value the host holds at most (R83). -/
theorem busRead_next {s t : State} {addr : Nat} (h : busRead addr s = .next t) : ∃ d, t = { s with hostData := d } := by
  unfold busRead at h
  split at h
  · cases h
  · exact ⟨_, (Host.Outcome.next.inj h).symm⟩

/-- Settles O18: a write reaches the request at most, a read the value the host holds. -/
theorem hostAccessesLeaveTheTransactionAlone : Obligations.HostAccessesLeaveTheTransactionAlone := by
  rintro s t a rest hb ha ⟨addr, v, hacc⟩ h
  rw [step_act (code_of_step_next h) ha] at h
  obtain rfl | rfl | rfl := hacc
  · obtain ⟨q, rfl⟩ := busWrite_busy (s := { s with agenda := rest }) hb h
    exact ⟨rfl, rfl, hb, rfl, rfl⟩
  · obtain ⟨d, rfl⟩ := busRead_next h
    exact ⟨rfl, rfl, hb, rfl, rfl⟩
  · obtain ⟨q, rfl⟩ := busWrite_busy (s := { s with agenda := rest }) hb h
    exact ⟨rfl, rfl, hb, rfl, rfl⟩

/-- Settles O19, by the cases of a step. -/
theorem responseChangesOnlyAtCompletionOrReset : Obligations.ResponseChangesOnlyAtCompletionOrReset := by
  intro s t h hresp
  cases step_cases h with
  | quiet _ _ => exact absurd rfl hresp
  | write _ written => exact absurd (writeEntry_cases written).2.1 hresp
  | completion _ pending _ => exact .inl ⟨_, pending, rfl, rfl, rfl⟩
  | reset act => exact .inr ⟨_, act⟩

/-- Settles O53, by the cases of a step: of the host writes only an accepted GO changes the handshake, and the one offset of
CTRL is 0x01. -/
theorem onlyGoCompletionAndResetChangeTheHandshake : Obligations.OnlyGoCompletionAndResetChangeTheHandshake := by
  intro s t h hchange
  cases step_cases h with
  | quiet _ _ => simp at hchange
  | write act written =>
    obtain ⟨q, rfl⟩ | ⟨hctrl, hv, hidle, rfl⟩ := writeEntry_inversion written
    · simp at hchange
    · obtain rfl := offset_of_entryAt hctrl (by decide)
      exact .inl ⟨hidle, rfl, rfl, rfl, rfl, rfl, _, _, hv, act⟩
  | completion _ pending _ => exact .inr (.inl ⟨by simp [pending], rfl, rfl, rfl⟩)
  | reset act => exact .inr (.inr ⟨⟨_, act⟩, rfl, rfl, rfl, rfl⟩)

/-! ### The codec unit's step -/

/-- With a legal code in the snapshot the codec unit's move is `exec` of its command (R48). -/
theorem codecMove_legal {s : State} {q : Request} {i : Instr} (hq : s.snapshot = some q) (hi : decode q.cmd = .ok i) :
    codecMove s = exec i s := by
  simp [codecMove, hq, hi]

/-- A poll that finds DONE = 0 gives the codec unit its move and stays in the agenda (R105, R360). -/
theorem step_waitDone_pending {s : State} {rest : List BusAct} (hc : codeReserved s.resp.code = false)
    (ha : s.agenda = .waitDone :: rest) (hd : s.done = false) : step s = codecMove s := by
  rw [step_act hc ha, hostMove, if_neg (by simp [hd]), ← ha]

/-- Settles O6. -/
theorem stepRunsTheSnapshotCommand : Obligations.StepRunsTheSnapshotCommand := by
  intro s q i hc hq hi
  refine ⟨fun ha => ?_, fun rest ha => ?_, fun rest ha hd => ?_⟩
  · exact (step_idle hc ha).trans (codecMove_legal hq hi)
  · exact (step_act hc ha).trans (codecMove_legal (s := { s with agenda := rest }) hq hi)
  · exact (step_waitDone_pending hc ha hd).trans (codecMove_legal hq hi)

end Sys2Proof.Machine
end

section
/-! PROOFS. The register window of 10_state.md R33 to R47: what reset leaves in it, STATUS and CTRL, what a write leaves in its
own entry, and the entries that ignore writes. -/

namespace Sys2Proof.Machine

/-! ### After reset -/

/-- Every entry reads 0 after reset (R52). -/
theorem readEntry_reset (e : Entry) : readEntry e State.reset = 0 := by
  cases e with
  | rdInValue k => exact SlotRegs.get_zero k
  | rdOutValue k => exact SlotRegs.get_zero k
  | _ => rfl

/-- Settles O1, entry by entry. -/
theorem resetEntriesReadZero : Obligations.ResetEntriesReadZero :=
  ⟨fun _ => readEntry_reset _, fun _ => rfl, fun _ => rfl, rfl, rfl⟩

/-! ### CTRL and STATUS -/

/-- A write of CTRL looks at bit 0 of the value alone (R35). -/
theorem windowWrite_ctrl (s : State) (v : Value) : windowWrite 0x01 v s = .next (if v.getLsbD 0 then s.go else s) := rfl

/-- Settles O12. -/
theorem goIsAcceptedOnlyWhileIdle : Obligations.GoIsAcceptedOnlyWhileIdle := by
  intro s v
  rw [windowWrite_ctrl]
  refine ⟨fun hv hb => ?_, fun hv hb => ?_, fun hv => ?_, rfl⟩
  · rw [if_pos hv, State.go_idle hb]
  · rw [if_pos hv, State.go_busy hb]
  · rw [if_neg (Bool.not_eq_true _ ▸ hv)]

/-- STATUS reads as its byte, zero-extended (R36). -/
theorem windowRead_status (s : State) : windowRead 0x02 s = (statusByte s).setWidth 64 := rfl

/-- Bit `i` of STATUS (R36). -/
theorem windowRead_status_getLsbD (s : State) {i : Nat} (h : i < 8) :
    (windowRead 0x02 s).getLsbD i =
      if i < 4 then s.resp.code.getLsbD i else if i < 6 then false else if i = 6 then s.busy else s.done := by
  have hfields : (windowRead 0x02 s).getLsbD i =
      ((BitVec.ofBool s.done ++ BitVec.ofBool s.busy ++ 0#2 ++ s.resp.code).setWidth 64).getLsbD i := rfl
  rw [hfields, BitVec.getLsbD_setWidth]
  simp only [BitVec.getLsbD_append]
  interval_cases i <;> simp

/-- A zero-extended register reads below the power of its width (R47). -/
theorem toNat_setWidth_lt {w : Nat} (x : BitVec w) : (x.setWidth 64).toNat < 2 ^ w := by
  rw [BitVec.toNat_setWidth]
  exact (Nat.mod_le _ _).trans_lt x.isLt

/-- Settles O13, from the bits of STATUS one by one. -/
theorem statusReadsItsFields : Obligations.StatusReadsItsFields := by
  intro s
  have hcode : (windowRead 0x02 s).setWidth 4 = s.resp.code := by
    refine BitVec.eq_of_getLsbD_eq fun i hi => ?_
    rw [BitVec.getLsbD_setWidth, windowRead_status_getLsbD s (by omega), if_pos hi]
    simp [hi]
  have hbyte : (windowRead 0x02 s).toNat < 256 := toNat_setWidth_lt (statusByte s)
  refine ⟨?_, ?_, ?_, ?_, hcode, hbyte⟩ <;> rw [windowRead_status_getLsbD s (by omega)] <;> rfl

/-! ### Read-write entries -/

theorem windowWrite_rdInCtrl (s : State) (v : Value) :
    windowWrite 0x04 v s = .next (s.withReq { s.req with rdValid := v.getLsbD 0 }) := rfl

theorem windowWrite_rdInPresent (s : State) (v : Value) :
    windowWrite 0x05 v s = .next (s.withReq { s.req with rdPresent := v.setWidth 12 }) := rfl

/-- A slot for every number below 12 (R40). -/
theorem Slot.exists_num {k : Nat} (h : k < 12) : ∃ s : Slot, s.num = k := by
  have h12 : ∀ k < 12, ∃ s ∈ Slot.all, s.num = k := by decide
  obtain ⟨s, -, hs⟩ := h12 k h
  exact ⟨s, hs⟩

/-- A value register reads back whole (R42). -/
theorem rdInValue_reads_back (s : State) (v : Value) (k : Slot) :
    ∃ t, windowWrite (0x10 + k.num) v s = .next t ∧ windowRead (0x10 + k.num) t = v := by
  refine ⟨s.withReq { s.req with rdValue := s.req.rdValue.set k v }, ?_, ?_⟩
  · rw [windowWrite, entryAt_rdInValue, writeEntry]
  · rw [windowRead, entryAt_rdInValue]
    simp [readEntry]

/-- A byte of IN_BUF reads back the low 8 bits (R72, log 8). -/
theorem inBuf_reads_back {s : State} (hs : s.inv = true) (v : Value) {i : Nat} (hi : i < s.cfg.inCap) :
    ∃ t, windowWrite (0x100 + i) v s = .next t ∧ windowRead (0x100 + i) t = (v.setWidth 8).setWidth 64 := by
  refine ⟨s.withReq { s.req with inBuf := s.req.inBuf.write i (v.setWidth 8) }, ?_, ?_⟩
  · rw [windowWrite, entryAt_inBuf hi, writeEntry]
  · rw [windowRead, State.withReq_cfg, entryAt_inBuf hi]
    simp [readEntry, Memory.read_write (State.inv_inBuf hs).1]

/-- IN_LEN reads back the low 8 bits when they are at most IN_CAP (R37, R352). -/
theorem inLen_reads_back {s : State} {v : Value} (hv : (v.setWidth 8).toNat ≤ s.cfg.inCap) :
    ∃ t, windowWrite 0x03 v s = .next t ∧ windowRead 0x03 t = (v.setWidth 8).setWidth 64 :=
  ⟨_, if_neg (Nat.not_lt.mpr hv), rfl⟩

/-- Settles O15, entry by entry. -/
theorem writtenEntriesReadBack : Obligations.WrittenEntriesReadBack := by
  intro s v hs
  refine ⟨⟨_, rfl, rfl⟩, inLen_reads_back, ⟨_, rfl, ?_⟩, ⟨_, rfl, rfl⟩, fun k hk => ?_, fun i => inBuf_reads_back hs v⟩
  · rw [BitVec.setWidth_one]
    rfl
  · obtain ⟨slot, rfl⟩ := Slot.exists_num hk
    exact rdInValue_reads_back s v slot

/-! ### Entries that ignore writes -/

/-- The entries a host write leaves alone: the read-only registers, OUT_BUF and the reserved numbers (R33, R47). -/
def Entry.ignoresWrites : Entry → Bool
  | .status | .fmtOut | .rdOutCtrl | .rdOutPresent | .outLen | .rdOutValue _ | .outBuf _ | .reserved => true
  | .cmd | .ctrl | .inLen | .rdInCtrl | .rdInPresent | .rdInValue _ | .inBuf _ => false

theorem writeEntry_ignored {e : Entry} (h : e.ignoresWrites = true) (v : Value) (s : State) :
    writeEntry e v s = .next s := by
  cases e with
  | cmd | ctrl | inLen | rdInCtrl | rdInPresent | rdInValue | inBuf => cases h
  | _ => rfl

theorem windowWrite_ignored {s : State} {off : Nat} (h : (entryAt s.cfg off).ignoresWrites = true) (v : Value) :
    windowWrite off v s = .next s :=
  writeEntry_ignored h v s

/-- From 0x30 on everything outside the two buffer windows is reserved (R84, log 9). -/
theorem entryAt_outside_buffers {cfg : Config} {off : Nat} (hlow : 0x30 ≤ off)
    (hin : ¬(0x100 ≤ off ∧ off < 0x100 + cfg.inCap)) (hout : ¬(0x200 ≤ off ∧ off < 0x200 + 26)) :
    entryAt cfg off = .reserved := by
  unfold entryAt outCap
  rw [if_neg (by omega), if_neg (by omega), if_neg (by omega), if_neg hin, if_neg hout]

/-- The reserved register numbers and the offsets that belong to no buffer (R47, R72, R84). -/
theorem entryAt_reserved {cfg : Config} {off : Nat} (hc : cfg.inCap ≤ 255)
    (h : 0x0A ≤ off ∧ off ≤ 0x0F ∨ 0x1C ≤ off ∧ off ≤ 0x1F ∨ 0x2C ≤ off ∧ off ≤ 0xFF ∨
      0x100 + cfg.inCap ≤ off ∧ off ≤ 0x1FF ∨ 0x21A ≤ off) :
    entryAt cfg off = .reserved := by
  by_cases hlow : 0x30 ≤ off
  · exact entryAt_outside_buffers hlow (by omega) (by omega)
  · obtain ⟨hlo, hhi⟩ | ⟨hlo, hhi⟩ | ⟨hlo, -⟩ : (0x0A ≤ off ∧ off ≤ 0x0F) ∨ (0x1C ≤ off ∧ off ≤ 0x1F) ∨
        (0x2C ≤ off ∧ off < 0x30) := by omega
    all_goals interval_cases off <;> rfl

/-- The read-only registers and OUT_BUF. -/
theorem entryAt_readOnly {cfg : Config} {off : Nat} (hc : cfg.inCap ≤ 255)
    (h : off = 0x02 ∨ 0x06 ≤ off ∧ off ≤ 0x09 ∨ 0x20 ≤ off ∧ off ≤ 0x2B ∨ 0x200 ≤ off ∧ off ≤ 0x219) :
    (entryAt cfg off).ignoresWrites = true := by
  obtain rfl | ⟨hlo, hhi⟩ | ⟨hlo, hhi⟩ | ⟨hlo, hhi⟩ := h
  · rfl
  · interval_cases off <;> rfl
  · obtain ⟨n, rfl⟩ := Nat.exists_eq_add_of_le hlo
    obtain ⟨slot, rfl⟩ := Slot.exists_num (k := n) (by omega)
    rw [entryAt_rdOutValue]
    rfl
  · obtain ⟨n, rfl⟩ := Nat.exists_eq_add_of_le hlo
    rw [entryAt_outBuf (by omega) hc]
    rfl

/-- A mask of the one used bit of CTRL or RD_IN_CTRL keeps it (R47). -/
theorem getLsbD_zero_and_one_mask (v : Value) : (v &&& 1).getLsbD 0 = v.getLsbD 0 := by simp

/-- A mask of the 12 used bits of RD_IN_PRESENT keeps them (R47). -/
theorem setWidth_twelve_and_mask (v : Value) : (v &&& 0xFFF).setWidth 12 = v.setWidth 12 := by
  refine BitVec.eq_of_getLsbD_eq fun i hi => ?_
  rw [BitVec.getLsbD_setWidth, BitVec.getLsbD_setWidth, BitVec.getLsbD_and]
  have hmask : ∀ i < 12, (0xFFF : Value).getLsbD i = true := by decide
  rw [hmask i hi, Bool.and_true]

/-- Settles O16: the reserved and the read-only ranges name entries that ignore writes, and the used bits of a register are
the ones its write looks at. -/
theorem reservedAndReadOnlyIgnoreWrites : Obligations.ReservedAndReadOnlyIgnoreWrites := by
  intro s off v hcfg
  have hcap : s.cfg.inCap ≤ 255 := by
    simp only [Config.wf, Bool.and_eq_true, decide_eq_true_eq] at hcfg
    exact hcfg.2
  refine ⟨fun h => ?_, fun h => windowWrite_ignored (entryAt_readOnly hcap h) v, ?_, ?_, ?_, ?_⟩
  · have he := entryAt_reserved hcap h
    exact ⟨by rw [windowRead, he, readEntry], windowWrite_ignored (by rw [he]; rfl) v⟩
  · have hbits := fun i (hi : i < 8) => windowRead_status_getLsbD s hi
    exact ⟨rfl, hbits 4 (by decide), hbits 5 (by decide), toNat_setWidth_lt _, toNat_setWidth_lt _, toNat_setWidth_lt _,
      toNat_setWidth_lt _⟩
  · rw [windowWrite_ctrl, windowWrite_ctrl, getLsbD_zero_and_one_mask]
  · rw [windowWrite_rdInCtrl, windowWrite_rdInCtrl, getLsbD_zero_and_one_mask]
  · rw [windowWrite_rdInPresent, windowWrite_rdInPresent, setWidth_twelve_and_mask]

end Sys2Proof.Machine
end

section
/-! PROOFS. Which request registers a command reads: RD_IN_CTRL.VALID (R38) and the reading's slots (R41). -/

namespace Sys2Proof.Machine

/-- A command that answers two snapshots alike ends alike in the states that hold them. -/
theorem exec_snapshot_congr {i : Instr} {s : State} {q q' : Request} (hq : s.snapshot = some q)
    (h : respond s.cfg i q' = respond s.cfg i q) : exec i { s with snapshot := some q' } = exec i s := by
  rw [exec_some (q := q') i rfl, exec_some i hq, h]
  rfl

/-! ### RD_IN_CTRL.VALID -/

/-- The ENCODE commands (R101, class 3), each with an `encodeResponse` of its tag and frame. -/
theorem respond_encode {i : Instr} (h : i ∈ [Instr.encodeF2, .encodeF3, .encodeF4, .encodeF5]) (cfg : Config) :
    ∃ tag frame, respond cfg i = encodeResponse tag frame := by
  simp only [List.mem_cons, List.not_mem_nil, or_false] at h
  obtain rfl | rfl | rfl | rfl := h <;> exact ⟨_, _, rfl⟩

/-- No response but an ENCODE's depends on VALID (R38). -/
theorem respond_rdValid {i : Instr} (h : i ∉ [Instr.encodeF2, .encodeF3, .encodeF4, .encodeF5]) (cfg : Config)
    (q : Request) (b : Bool) : respond cfg i { q with rdValid := b } = respond cfg i q := by
  cases i with
  | encodeF2 | encodeF3 | encodeF4 | encodeF5 => simp at h
  | detect | decodeAny | decodeF2 | decodeF3 | decodeF4 | decodeF5 | envWrap | envStrip => rfl

/-- Settles O28: an ENCODE's first test is VALID, and no other response looks at it. -/
theorem onlyEncodesReadValid : Obligations.OnlyEncodesReadValid := by
  refine ⟨fun i s q hi hq hv => ?_, fun i s q b hi hq => exec_snapshot_congr hq (respond_rdValid hi s.cfg q b)⟩
  obtain ⟨tag, frame, hr⟩ := respond_encode hi s.cfg
  exact (exec_encode hq (congrFun hr q)).1 hv

/-! ### The slots an encode reads -/

section
variable {q q' : Request}

theorem Field.encodeRaw_congr {f : Field} (h : q.slotIn f.slot = q'.slotIn f.slot) : f.encodeRaw q = f.encodeRaw q' := by
  rw [Field.encodeRaw, Field.encodeRaw, h]

theorem Field.encode_congr {f : Field} (h : q.slotIn f.slot = q'.slotIn f.slot) : f.encode q = f.encode q' := by
  rw [Field.encode, Field.encode, Field.encodeRaw_congr h]

theorem smagPart_congr {enc : Int → Option (List Byte)} (h : q.slotIn .temperature = q'.slotIn .temperature) :
    smagPart enc q = smagPart enc q' := by
  rw [smagPart, smagPart, h]

theorem coarseIdPart_congr {form : F4IdForm} (h : q.slotIn .coarseId = q'.slotIn .coarseId) :
    coarseIdPart form q = coarseIdPart form q' := by
  rw [coarseIdPart, coarseIdPart, h]

theorem powerPart_congr (hb : q.slotIn .batteryVoltage = q'.slotIn .batteryVoltage)
    (ht : q.slotIn .txPower = q'.slotIn .txPower) : powerPart q = powerPart q' := by
  rw [powerPart, powerPart, Field.encodeRaw_congr (f := f5BAT) hb, Field.encodeRaw_congr (f := f5TX) ht]

theorem partsF24_congr {cfg : Config} (h : ∀ k ∈ [Slot.temperature, .humidity, .pressure], q.slotIn k = q'.slotIn k) :
    partsF24 cfg q = partsF24 cfg q' := by
  rw [partsF24, partsF24, smagPart_congr (h .temperature (by simp)), Field.encode_congr (f := f24H) (h .humidity (by simp)),
    Field.encode_congr (f := f24P) (h .pressure (by simp))]

theorem frameF2_congr {cfg : Config} (h : ∀ k ∈ [Slot.temperature, .humidity, .pressure], q.slotIn k = q'.slotIn k) :
    frameF2 cfg q = frameF2 cfg q' := by
  rw [frameF2, frameF2, partsF24_congr h]

theorem frameF4_congr {cfg : Config}
    (h : ∀ k ∈ [Slot.temperature, .humidity, .pressure, .coarseId], q.slotIn k = q'.slotIn k) :
    frameF4 cfg q = frameF4 cfg q' := by
  rw [frameF4, frameF4, coarseIdPart_congr (h .coarseId (by simp)), partsF24_congr fun k hk =>
    h k (List.subset_append_left [Slot.temperature, .humidity, .pressure] [Slot.coarseId] hk)]

theorem frameF3_congr {cfg : Config}
    (h : ∀ k ∈ [Slot.temperature, .humidity, .pressure, .accelX, .accelY, .accelZ, .batteryVoltage],
      q.slotIn k = q'.slotIn k) :
    frameF3 cfg q = frameF3 cfg q' := by
  rw [frameF3, frameF3, smagPart_congr (h .temperature (by simp)), Field.encode_congr (f := f3H) (h .humidity (by simp)),
    Field.encode_congr (f := f3P) (h .pressure (by simp)), Field.encode_congr (f := f3AX) (h .accelX (by simp)),
    Field.encode_congr (f := f3AY) (h .accelY (by simp)), Field.encode_congr (f := f3AZ) (h .accelZ (by simp)),
    Field.encode_congr (f := f3BAT) (h .batteryVoltage (by simp))]

theorem frameF5_congr
    (h : ∀ k ∈ [Slot.temperature, .humidity, .pressure, .accelX, .accelY, .accelZ, .batteryVoltage, .txPower,
      .movementCounter, .measurementSequence, .deviceId], q.slotIn k = q'.slotIn k) :
    frameF5 q = frameF5 q' := by
  rw [frameF5, frameF5, Field.encode_congr (f := f5T) (h .temperature (by simp)),
    Field.encode_congr (f := f5H) (h .humidity (by simp)), Field.encode_congr (f := f5P) (h .pressure (by simp)),
    Field.encode_congr (f := f5AX) (h .accelX (by simp)), Field.encode_congr (f := f5AY) (h .accelY (by simp)),
    Field.encode_congr (f := f5AZ) (h .accelZ (by simp)),
    powerPart_congr (h .batteryVoltage (by simp)) (h .txPower (by simp)),
    Field.encode_congr (f := f5MOV) (h .movementCounter (by simp)),
    Field.encode_congr (f := f5SEQ) (h .measurementSequence (by simp)),
    Field.encode_congr (f := f5ID) (h .deviceId (by simp))]

end

/-- An encode's end depends on VALID and on what its frame reads (R38, R41). -/
theorem exec_encode_congr {i : Instr} {tag : Byte} {frame : Request → Option (List Byte)} {s : State} {q q' : Request}
    (hr : respond s.cfg i = encodeResponse tag frame) (hq : s.snapshot = some q) (hv : q.rdValid = q'.rdValid)
    (hf : frame q = frame q') : exec i { s with snapshot := some q' } = exec i s :=
  exec_snapshot_congr hq (by rw [hr, encodeResponse, encodeResponse, hv, hf])

/-! ### The slots a decode leaves absent -/

/-- A slot absent from a decoded frame is absent from the response, in an error as well (R45, R306). -/
theorem decodeResponse_absent {tag : Byte} {len : Nat} {slots : Memory → Slot → Option Int} {k : Slot} (q : Request)
    (h : ∀ m, slots m k = none) :
    (decodeResponse tag len slots q).rdPresent.getLsbD k.num = false ∧
      (decodeResponse tag len slots q).rdValue.get k = 0 := by
  unfold decodeResponse
  split_ifs
  · exact ⟨by simp [errorResponse, Response.zero], SlotRegs.get_zero k⟩
  · exact ⟨by simp [errorResponse, Response.zero], SlotRegs.get_zero k⟩
  · simp [readingResponse, h]

/-- The same of the state a decode command ends in. -/
theorem exec_decode_absent {i : Instr} {tag : Byte} {len : Nat} {slots : Memory → Slot → Option Int} {k : Slot}
    {s t : State} (hr : respond s.cfg i = decodeResponse tag len slots) (h : exec i s = .next t)
    (hk : ∀ m, slots m k = none) : t.resp.rdPresent.getLsbD k.num = false ∧ t.resp.rdValue.get k = 0 := by
  obtain ⟨q, -, rfl⟩ := exec_next h
  rw [State.complete_resp, hr]
  exact decodeResponse_absent q hk

theorem slotsF24_foreign {cfg : Config} {k : Slot} (h : k ∉ [Slot.temperature, .humidity, .pressure]) (m : Memory) :
    slotsF24 cfg m k = none := by
  cases k with
  | temperature | humidity | pressure => simp at h
  | _ => rfl

theorem slotsF4_foreign {cfg : Config} {k : Slot} (h : k ∉ [Slot.temperature, .humidity, .pressure, .coarseId])
    (m : Memory) : slotsF4 cfg m k = none := by
  cases k with
  | temperature | humidity | pressure | coarseId => simp at h
  | _ => rfl

theorem slotsF3_foreign {k : Slot}
    (h : k ∉ [Slot.temperature, .humidity, .pressure, .accelX, .accelY, .accelZ, .batteryVoltage]) (m : Memory) :
    slotsF3 m k = none := by
  cases k with
  | temperature | humidity | pressure | accelX | accelY | accelZ | batteryVoltage => simp at h
  | _ => rfl

theorem slotsF5_foreign {k : Slot}
    (h : k ∉ [Slot.temperature, .humidity, .pressure, .accelX, .accelY, .accelZ, .batteryVoltage, .txPower,
      .movementCounter, .measurementSequence, .deviceId]) (m : Memory) :
    slotsF5 m k = none := by
  cases k with
  | coarseId => rfl
  | _ => simp at h

/-- Settles O29, format by format: what its frame reads, and which slots its reading leaves absent. -/
theorem foreignSlotsAreIgnored : Obligations.ForeignSlotsAreIgnored := by
  intro enc dec slots h
  simp only [List.mem_cons, Prod.mk.injEq, List.not_mem_nil, or_false] at h
  obtain ⟨rfl, rfl, rfl⟩ | ⟨rfl, rfl, rfl⟩ | ⟨rfl, rfl, rfl⟩ | ⟨rfl, rfl, rfl⟩ := h
  · exact ⟨fun s q q' hq hv h => exec_encode_congr rfl hq hv (frameF2_congr h),
      fun s t h k hk => exec_decode_absent rfl h (slotsF24_foreign hk)⟩
  · exact ⟨fun s q q' hq hv h => exec_encode_congr rfl hq hv (frameF3_congr h),
      fun s t h k hk => exec_decode_absent rfl h (slotsF3_foreign hk)⟩
  · exact ⟨fun s q q' hq hv h => exec_encode_congr rfl hq hv (frameF4_congr h),
      fun s t h k hk => exec_decode_absent rfl h (slotsF4_foreign hk)⟩
  · exact ⟨fun s q q' hq hv h => exec_encode_congr rfl hq hv (frameF5_congr h),
      fun s t h k hk => exec_decode_absent rfl h (slotsF5_foreign hk)⟩

end Sys2Proof.Machine
end

section
/-! PROOFS. The statements of 20_memory.md: what an access or a step changes, and which registers and bytes a command writes
and reads. -/

namespace Sys2Proof.Machine

/-! ### Accesses -/

/-- What the window reads does not depend on the acts still to come. -/
theorem windowRead_withAgenda (off : Nat) (s : State) (agenda : List BusAct) :
    windowRead off { s with agenda := agenda } = windowRead off s := rfl

/-- A host read of the window changes what the host holds alone (R83). -/
theorem step_read {s : State} {off : Nat} {rest : List BusAct} (hc : codeReserved s.resp.code = false)
    (ha : s.agenda = .read (s.cfg.windowBase + off) :: rest) :
    step s = .next { s with agenda := rest, hostData := windowRead off s } :=
  calc step s
    _ = busRead (s.cfg.windowBase + off) { s with agenda := rest } := step_act hc ha
    _ = .next { s with agenda := rest, hostData := windowRead off { s with agenda := rest } } :=
      busRead_window { s with agenda := rest } off
    _ = .next { s with agenda := rest, hostData := windowRead off s } := by rw [windowRead_withAgenda]

/-- The only offset of CTRL is 0x01 (R33). -/
theorem entryAt_ne_ctrl {cfg : Config} {off : Nat} (h : off ≠ 0x01) : entryAt cfg off ≠ .ctrl :=
  fun he => h (offset_of_entryAt he (by decide))

/-- Two offsets that name one entry are both reserved (R33, R72, R84). -/
theorem entryAt_eq_reserved {cfg : Config} {off off' : Nat} (hne : off' ≠ off) (he : entryAt cfg off' = entryAt cfg off) :
    entryAt cfg off' = .reserved := by
  by_contra hr
  exact hne ((offset_of_entryAt rfl hr).trans (offset_of_entryAt he.symm hr).symm)

/-- A host write outside CTRL changes the request alone, and every other offset reads as before (R85). -/
theorem windowWrite_frame {s t : State} {off : Nat} {v : Value} (hoff : off ≠ 0x01) (h : windowWrite off v s = .next t) :
    ∃ q, t = s.withReq q ∧ ∀ off', off' ≠ off → windowRead off' t = windowRead off' s := by
  obtain ⟨q, rfl, hread⟩ := writeEntry_frame (entryAt_ne_ctrl hoff) h
  refine ⟨q, rfl, fun off' hne => ?_⟩
  rw [windowRead, windowRead, State.withReq_cfg]
  by_cases he : entryAt s.cfg off' = entryAt s.cfg off
  · rw [entryAt_eq_reserved hne he, readEntry, readEntry]
  · exact hread _ he

/-- Settles O14: a read by its own equation, a write by the frame of the window. -/
theorem accessesHaveNoOtherEffect : Obligations.AccessesHaveNoOtherEffect := by
  refine ⟨fun s off rest hc ha => step_read hc ha, fun s t off v hoff h => ?_⟩
  obtain ⟨q, rfl, hread⟩ := windowWrite_frame hoff h
  exact ⟨rfl, rfl, rfl, rfl, rfl, rfl, rfl, hread⟩

/-! ### Who changes a request register or a parameter -/

/-- Settles O20, by the cases of a step. -/
theorem requestsAndParametersAreTheHosts : Obligations.RequestsAndParametersAreTheHosts := by
  intro s t h
  cases step_cases h with
  | quiet _ _ => exact ⟨rfl, fun hreq => absurd rfl hreq⟩
  | @write off v rest _ act written =>
    obtain ⟨hcfg, -, -⟩ := writeEntry_cases written
    exact ⟨hcfg, fun _ => ⟨s.cfg.windowBase + off, v, rest, act.imp_right fun hback => .inl hback.1⟩⟩
  | completion _ _ _ => exact ⟨rfl, fun hreq => absurd rfl hreq⟩
  | @reset rest act => exact ⟨rfl, fun _ => ⟨0, 0, rest, .inr (.inr act)⟩⟩

/-- Settles O22: a completion is `State.complete`, which keeps every field but the response, BUSY, DONE and the snapshot. -/
theorem commandsNeverWriteTheRequest : Obligations.CommandsNeverWriteTheRequest := by
  intro i s t h
  obtain ⟨q, -, rfl⟩ := exec_next h
  exact ⟨rfl, rfl, rfl, rfl, fun _ => rfl, fun _ => rfl, rfl, rfl, rfl, rfl, rfl, rfl⟩

/-! ### Which bytes of IN_BUF a decode reads -/

section
variable {m m' : Memory} {n : Nat}

/-- A field inside the first `n` bytes decodes alike from buffers that agree on them (R132). -/
theorem Field.decode_congr {f : Field} (hf : f.base + f.bytes ≤ n) (h : ∀ k < n, m.read k = m'.read k) :
    f.decode m = f.decode m' := by
  have hmem : memRead m f.base f.bytes = memRead m' f.base f.bytes := memRead_congr fun k hk => h _ (by omega)
  rw [Field.decode, Field.decode, Field.raw, Field.raw, hmem]

/-- The reading Formats 2 and 4 share lies in bytes 1 to 5 (R112, R113). -/
theorem slotsF24_congr (cfg : Config) (hn : 6 ≤ n) (h : ∀ k < n, m.read k = m'.read k) :
    slotsF24 cfg m = slotsF24 cfg m' := by
  funext k
  cases k with
  | temperature => rw [slotsF24, slotsF24, h 2 (by omega), h 3 (by omega)]
  | humidity => exact Field.decode_congr (f := f24H) (le_trans (by decide) hn) h
  | pressure => exact Field.decode_congr (f := f24P) (le_trans (by decide) hn) h
  | _ => rfl

theorem slotsF4_congr (cfg : Config) (h : ∀ k < 7, m.read k = m'.read k) : slotsF4 cfg m = slotsF4 cfg m' := by
  have hshared : slotsF24 cfg m = slotsF24 cfg m' := slotsF24_congr cfg (by decide) h
  funext k
  cases k with
  | coarseId => rw [slotsF4, slotsF4, h 6 (by decide)]
  | _ => simp only [slotsF4, hshared]

theorem slotsF3_congr (h : ∀ k < 14, m.read k = m'.read k) : slotsF3 m = slotsF3 m' := by
  funext k
  cases k with
  | temperature => rw [slotsF3, slotsF3, h 2 (by decide), h 3 (by decide)]
  | humidity | pressure | accelX | accelY | accelZ | batteryVoltage => exact Field.decode_congr (by decide) h
  | _ => rfl

theorem slotsF5_congr (h : ∀ k < 24, m.read k = m'.read k) : slotsF5 m = slotsF5 m' := by
  funext k
  cases k with
  | coarseId => rfl
  | _ => exact Field.decode_congr (by decide) h

end

/-! ### Which bytes of IN_BUF a command reads -/

section
variable {q : Request} {m : Memory} (h : ∀ k < q.inLen.toNat, m.read k = q.byte k)
include h

/-- The tag byte of an input that is not empty lies below IN_LEN. -/
theorem byte_zero_withInBuf (hlen : q.inLen ≠ 0) : ({ q with inBuf := m } : Request).byte 0 = q.byte 0 :=
  h 0 (Nat.pos_of_ne_zero fun h0 => hlen (BitVec.eq_of_toNat_eq h0))

/-- A decode of `len` bytes reads no other byte, if its slots do not: it looks at the bytes only when IN_LEN = `len`. -/
theorem decodeResponse_withInBuf (tag : Byte) {len : Nat} {slots : Memory → Slot → Option Int} (hpos : len ≠ 0)
    (hslots : ∀ m m', (∀ k < len, m.read k = m'.read k) → slots m = slots m') :
    decodeResponse tag len slots { q with inBuf := m } = decodeResponse tag len slots q := by
  rw [decodeResponse, decodeResponse]
  by_cases hlen : q.inLen.toNat = len
  · subst hlen
    rw [byte_zero_withInBuf h fun h0 => hpos (congrArg BitVec.toNat h0), hslots m q.inBuf h]
  · rw [if_pos hlen, if_pos hlen]

theorem decodeF2Response_withInBuf (cfg : Config) :
    decodeF2Response cfg { q with inBuf := m } = decodeF2Response cfg q :=
  decodeResponse_withInBuf h 2 (by decide) fun _ _ => slotsF24_congr cfg le_rfl

theorem decodeF3Response_withInBuf : decodeF3Response { q with inBuf := m } = decodeF3Response q :=
  decodeResponse_withInBuf h 3 (by decide) fun _ _ => slotsF3_congr

theorem decodeF4Response_withInBuf (cfg : Config) :
    decodeF4Response cfg { q with inBuf := m } = decodeF4Response cfg q :=
  decodeResponse_withInBuf h 4 (by decide) fun _ _ => slotsF4_congr cfg

theorem decodeF5Response_withInBuf : decodeF5Response { q with inBuf := m } = decodeF5Response q :=
  decodeResponse_withInBuf h 5 (by decide) fun _ _ => slotsF5_congr

/-- The detector reads byte 0 of an input that is not empty (R180). -/
theorem detectResponse_withInBuf : detectResponse { q with inBuf := m } = detectResponse q := by
  rw [detectResponse, detectResponse]
  by_cases hlen : q.inLen = 0
  · rw [if_pos hlen, if_pos hlen]
  · rw [byte_zero_withInBuf h hlen]

/-- The dispatcher reads byte 0 of an input that is not empty, and what the format's own decode reads (R290). -/
theorem decodeAnyResponse_withInBuf (cfg : Config) :
    decodeAnyResponse cfg { q with inBuf := m } = decodeAnyResponse cfg q := by
  rw [decodeAnyResponse, decodeAnyResponse, decodeF2Response_withInBuf h, decodeF3Response_withInBuf h,
    decodeF4Response_withInBuf h, decodeF5Response_withInBuf h]
  by_cases hlen : q.inLen = 0
  · rw [if_pos hlen, if_pos hlen]
  · rw [byte_zero_withInBuf h hlen]

/-- The payload at `a` lies in the first `a + 24` bytes. -/
theorem payload_withInBuf {a : Nat} (ha : a + 24 ≤ q.inLen.toNat) : payload { q with inBuf := m } a = payload q a :=
  List.map_congr_left fun i hi => h _ (by have := List.mem_range.mp hi; omega)

theorem envWrapResponse_withInBuf (cfg : Config) :
    envWrapResponse cfg { q with inBuf := m } = envWrapResponse cfg q := by
  rw [envWrapResponse, envWrapResponse]
  by_cases hlen : q.inLen.toNat = 24
  · rw [payload_withInBuf h (by omega)]
  · rw [if_pos hlen, if_pos hlen]

theorem envStripResponse_withInBuf : envStripResponse { q with inBuf := m } = envStripResponse q := by
  rw [envStripResponse, envStripResponse]
  by_cases hlen : q.inLen.toNat = 26
  · rw [payload_withInBuf h (by omega)]
  · rw [if_pos hlen, if_pos hlen]

/-- No response depends on a byte of IN_BUF at or beyond IN_LEN (R71, R74); an ENCODE's depends on no byte at all. -/
theorem respond_withInBuf (cfg : Config) (i : Instr) : respond cfg i { q with inBuf := m } = respond cfg i q := by
  cases i with
  | detect => exact detectResponse_withInBuf h
  | decodeAny => exact decodeAnyResponse_withInBuf h cfg
  | decodeF2 => exact decodeF2Response_withInBuf h cfg
  | decodeF3 => exact decodeF3Response_withInBuf h
  | decodeF4 => exact decodeF4Response_withInBuf h cfg
  | decodeF5 => exact decodeF5Response_withInBuf h
  | encodeF2 | encodeF3 | encodeF4 | encodeF5 => rfl
  | envWrap => exact envWrapResponse_withInBuf h cfg
  | envStrip => exact envStripResponse_withInBuf h

end

/-- Settles O25, command by command: a response looks at IN_BUF only below IN_LEN. -/
theorem bytesBeyondTheLengthAreNeverRead : Obligations.BytesBeyondTheLengthAreNeverRead := by
  intro i s q m hq h
  exact exec_snapshot_congr hq (respond_withInBuf h s.cfg i)

end Sys2Proof.Machine
end

section
/-! PROOFS. The command word of 30_encoding.md section 1: decode and encode are inverse, and a code outside the command map
completes with IllegalCommand. -/

namespace Sys2Proof.Machine

/-- A command's word decodes to the command (R101). -/
theorem decode_encode (i : Instr) : decode (encode i) = .ok i := by
  cases i <;> rfl

/-- A byte that decodes to a command has its CLASS and SEL (R100, R101). -/
theorem fields_of_decode {b : Byte} {i : Instr} (h : decode b = .ok i) :
    classOf b = i.cls.toNat ∧ selOf b = i.sel.toNat := by
  unfold decode at h
  split at h
  case h_1 hcls => unfold decodeClass1 at h; split at h <;> cases h <;> exact ⟨hcls, ‹_›⟩
  case h_2 hcls => unfold decodeClass2 at h; split at h <;> cases h <;> exact ⟨hcls, ‹_›⟩
  case h_3 hcls => unfold decodeClass3 at h; split at h <;> cases h <;> exact ⟨hcls, ‹_›⟩
  case h_4 hcls => unfold decodeClass4 at h; split at h <;> cases h <;> exact ⟨hcls, ‹_›⟩
  case h_5 => cases h

/-- A byte is its CLASS followed by its SEL (R100). -/
theorem class_append_sel (b : Byte) : b.extractLsb' 4 4 ++ b.extractLsb' 0 4 = b := by
  exact (BitVec.extractLsb'_append_extractLsb'_eq_extractLsb' (by decide)).trans BitVec.extractLsb'_eq_self

/-- Only a command's own word decodes to it. -/
theorem encode_of_decode {b : Byte} {i : Instr} (h : decode b = .ok i) : encode i = b := by
  obtain ⟨hcls, hsel⟩ := fields_of_decode h
  calc encode i
    _ = i.cls ++ i.sel := rfl
    _ = b.extractLsb' 4 4 ++ b.extractLsb' 0 4 := by
      rw [BitVec.eq_of_toNat_eq hcls, BitVec.eq_of_toNat_eq hsel]
    _ = b := class_append_sel b

/-- Settles O5: a byte is determined by the CLASS and SEL that the decoder reads from it. -/
theorem decodeAndEncodeAgree : Obligations.DecodeAndEncodeAgree :=
  fun _ i => ⟨encode_of_decode, fun h => h ▸ decode_encode i⟩

/-- The codes of the command map (R101). -/
def commandMap : List Byte :=
  [0x10#8, 0x11#8, 0x22#8, 0x23#8, 0x24#8, 0x25#8, 0x32#8, 0x33#8, 0x34#8, 0x35#8, 0x40#8, 0x41#8]

theorem encode_mem_commandMap (i : Instr) : encode i ∈ commandMap := by
  cases i <;> decide

/-- A code outside the command map is rejected (R103): a byte that decodes is the word of a command, and the map lists it. -/
theorem decode_illegal {b : Byte} (h : b ∉ commandMap) : ∃ r, decode b = .error r := by
  cases hb : decode b with
  | error r => exact ⟨r, rfl⟩
  | ok i => exact absurd (encode_of_decode hb ▸ encode_mem_commandMap i) h

/-- Settles O4: each listed code is the word of its command. -/
theorem commandWordsOfTheMap : Obligations.CommandWordsOfTheMap :=
  ⟨rfl, rfl, rfl, rfl, rfl, rfl, rfl, rfl, rfl, rfl, rfl, rfl, fun _ => decode_illegal⟩

/-- An illegal code in the snapshot completes with IllegalCommand (R103, R306). -/
theorem codecMove_illegal {s : State} {q : Request} {r : DecodeReject} (hq : s.snapshot = some q)
    (hr : decode q.cmd = .error r) : codecMove s = .next (s.raise .illegalCommand) := by
  simp [codecMove, hq, hr]

/-- Settles O7: the decoder rejects the code, and the codec unit raises IllegalCommand. -/
theorem illegalCodeCompletesWithError : Obligations.IllegalCodeCompletesWithError := by
  intro s q hq hcmd
  obtain ⟨r, hr⟩ := decode_illegal hcmd
  exact ⟨by rw [decodeCmd, hr], codecMove_illegal hq hr, step_idle⟩

end Sys2Proof.Machine
end

section
/-! PROOFS. The host script of 30_encoding.md section 2 (R105, R106): what the accesses of a mnemonic, of WRIN and of MOVE
leave, and the check inside a pseudo-instruction. -/

namespace Sys2Proof.Machine

/-! ### The steps of the host -/

/-- A run of one step. -/
theorem run_one {s t : State} (h : step s = .next t) : Host.Core.run Sys2Proof.core 1 s = .next t :=
  (run_succ 0 h).trans (run_zero t)

section
variable {s : State} {rest : List BusAct} (hc : codeReserved s.resp.code = false)
include hc

/-- A host write of the window is the write of its offset. -/
theorem step_write {off : Nat} {v : Value} {t : State} (ha : s.agenda = .write (s.cfg.windowBase + off) v :: rest)
    (hw : windowWrite off v { s with agenda := rest } = .next t) : step s = .next t :=
  ((step_act hc ha).trans (busWrite_window { s with agenda := rest } off v)).trans hw

/-- The second half of a copy writes the value the host holds. -/
theorem step_writeBack {off : Nat} {t : State} (ha : s.agenda = .writeBack (s.cfg.windowBase + off) :: rest)
    (hw : windowWrite off s.hostData { s with agenda := rest } = .next t) : step s = .next t :=
  ((step_act hc ha).trans (busWrite_window { s with agenda := rest } off s.hostData)).trans hw

/-- A poll that finds DONE = 1 ends (R105). -/
theorem step_waitDone_done (ha : s.agenda = .waitDone :: rest) (hd : s.done = true) :
    step s = .next { s with agenda := rest, hostData := windowRead 0x02 s } := by
  exact (step_act hc ha).trans (if_pos hd)

/-- A check that finds CODE = OK keeps the acts after it (R106). -/
theorem step_stopUnlessOk_ok {n : Nat} (ha : s.agenda = .stopUnlessOk n :: rest) (hok : s.resp.code = 0) :
    step s = .next { s with agenda := rest, hostData := windowRead 0x02 s } := by
  exact (step_act hc ha).trans (if_pos hok)

/-- A check that finds an error drops the acts it guards (R106). -/
theorem step_stopUnlessOk_error {n : Nat} (ha : s.agenda = .stopUnlessOk n :: rest) (herr : s.resp.code ≠ 0) :
    step s = .next { s with agenda := rest.drop n, hostData := windowRead 0x02 s } := by
  exact (step_act hc ha).trans (if_neg herr)

end

/-! ### What a host write of a byte-wide entry leaves -/

/-- A byte written through the 64 bits of an access arrives whole (log 8). -/
theorem setWidth_byte_value (b : Byte) : (b.setWidth 64).setWidth 8 = b := by
  rw [BitVec.setWidth_setWidth_of_le _ (by decide), BitVec.setWidth_eq]

theorem windowWrite_cmd (s : State) (b : Byte) :
    windowWrite 0x00 (b.setWidth 64) s = .next (s.withReq { s.req with cmd := b }) :=
  congrArg (fun c => Host.Outcome.next (s.withReq { s.req with cmd := c })) (setWidth_byte_value b)

theorem windowWrite_inLen {s : State} {b : Byte} (h : b.toNat ≤ s.cfg.inCap) :
    windowWrite 0x03 (b.setWidth 64) s = .next (s.withReq { s.req with inLen := b }) := by
  have hentry : windowWrite 0x03 (b.setWidth 64) s = writeEntry .inLen (b.setWidth 64) s := rfl
  rw [hentry, writeEntry, setWidth_byte_value, if_neg (Nat.not_lt.mpr h)]

theorem windowWrite_inBuf {s : State} {i : Nat} (b : Byte) (h : i < s.cfg.inCap) :
    windowWrite (0x100 + i) (b.setWidth 64) s =
      .next (s.withReq { s.req with inBuf := s.req.inBuf.write i b }) := by
  rw [windowWrite, entryAt_inBuf h, writeEntry, setWidth_byte_value]

/-- A GO to an idle block is accepted (R35). -/
theorem windowWrite_go {s : State} (hb : s.busy = false) :
    windowWrite 0x01 1 s = .next { s with snapshot := some s.req, busy := true, done := false } := by
  rw [windowWrite_ctrl, if_pos (by decide), State.go_idle hb]

/-! ### A mnemonic -/

/-- From an idle block the first two accesses of a mnemonic leave its transaction pending and the host polling. -/
theorem run_command_start {s : State} {i : Instr} {rest : List BusAct} (hc : codeReserved s.resp.code = false)
    (hb : s.busy = false) (ha : s.agenda = runActs s.cfg.windowBase i ++ rest) :
    Host.Core.run Sys2Proof.core 2 s = .next { s.pending (encode i) with agenda := .waitDone :: rest } := by
  rw [run_succ 1 (step_write hc ha (windowWrite_cmd _ (encode i)))]
  refine run_one (step_write ?_ rfl (windowWrite_go ?_))
  · exact hc
  · exact hb

/-- A poll runs the pending command and then ends (R105, log 6). -/
theorem run_poll {s : State} {q : Request} {i : Instr} {rest : List BusAct} (hc : codeReserved s.resp.code = false)
    (hq : s.snapshot = some q) (hi : decode q.cmd = .ok i) (hd : s.done = false) (ha : s.agenda = .waitDone :: rest) :
    ∃ d, Host.Core.run Sys2Proof.core 2 s =
      .next { s.complete (respond s.cfg i q) with agenda := rest, hostData := d } := by
  have hexec : step s = .next (s.complete (respond s.cfg i q)) := by
    rw [step_waitDone_pending hc ha hd, codecMove_legal hq hi, exec_some i hq]
  exact ⟨_, (run_succ 1 hexec).trans (run_one (step_waitDone_done (respond_shape _ i q).code ha rfl))⟩

/-- Settles O48: two accesses start the command, and the poll completes it. -/
theorem mnemonicRunsItsCommand : Obligations.MnemonicRunsItsCommand := by
  intro s i rest hs hb ha
  have hc := State.inv_code hs
  obtain ⟨d, hpoll⟩ := run_poll (s := { s.pending (encode i) with agenda := .waitDone :: rest }) hc rfl (decode_encode i)
    rfl rfl
  exact ⟨_, _, (run_add 2 (run_command_start hc hb ha)).trans hpoll, exec_some i rfl, rfl, rfl, rfl, rfl, rfl⟩

/-! ### Filling IN_BUF -/

/-- The buffer after writes of `g i` to each index `i < n`, in rising order. -/
def Memory.fill (m : Memory) (g : Nat → Byte) : Nat → Memory
  | 0 => m
  | n + 1 => (m.fill g n).write n (g n)

section
variable {m : Memory}

theorem Memory.fill_wf (hm : m.wf = true) (g : Nat → Byte) (n : Nat) : (m.fill g n).wf = true := by
  induction n with
  | zero => exact hm
  | succ n ih => exact Memory.write_wf ih n (g n)

theorem Memory.read_fill_lt (hm : m.wf = true) (g : Nat → Byte) {n i : Nat} (h : i < n) : (m.fill g n).read i = g i := by
  induction n with
  | zero => omega
  | succ n ih =>
    rw [Memory.fill, Memory.read_write (Memory.fill_wf hm g n)]
    split
    · next heq => rw [heq]
    · exact ih (by omega)

theorem Memory.read_fill_ge (m : Memory) (g : Nat → Byte) {n i : Nat} (h : n ≤ i) : (m.fill g n).read i = m.read i := by
  induction n with
  | zero => rfl
  | succ n ih =>
    rw [Memory.fill, Memory.read_write_ne _ _ (by omega)]
    exact ih (by omega)

end

/-- The state with bytes `g i` in IN_BUF for each `i < n`. -/
def State.fillInBuf (s : State) (g : Nat → Byte) (n : Nat) : State :=
  s.withReq { s.req with inBuf := s.req.inBuf.fill g n }

/-! ### WRIN -/

/-- The byte writes of WRIN, one for each index of the input. -/
def inBufWrites (base : Nat) (g : Nat → Byte) (n : Nat) : List BusAct :=
  (List.range n).map fun i => .write (base + (0x100 + i)) ((g i).setWidth 64)

/-- WRIN is the write of IN_LEN and the byte writes. -/
theorem expand_wrin (base : Nat) (bytes : List Byte) :
    ScriptStmt.expand base (.wrin bytes) =
      .write (base + 0x03) (BitVec.ofNat 64 bytes.length) :: inBufWrites base (fun i => bytes.getD i 0) bytes.length := by
  rw [ScriptStmt.expand, inBufWrites]
  congr 1
  refine List.ext_getElem (by simp) fun i _ hi => ?_
  have hlen : i < bytes.length := by simpa using hi
  simp [hlen, Nat.add_assoc]

/-- The byte writes fill IN_BUF, one step a byte. -/
theorem run_inBufWrites {s : State} (hc : codeReserved s.resp.code = false) (g : Nat → Byte) {n : Nat}
    (hn : n ≤ s.cfg.inCap) {rest : List BusAct} (ha : s.agenda = inBufWrites s.cfg.windowBase g n ++ rest) :
    Host.Core.run Sys2Proof.core n s = .next { s.fillInBuf g n with agenda := rest } := by
  induction n generalizing rest with
  | zero =>
    obtain rfl : s.agenda = rest := ha
    rfl
  | succ n ih =>
    rw [inBufWrites, List.range_succ, List.map_append, List.append_assoc] at ha
    rw [run_add 1 (ih (by omega) ha)]
    refine run_one (step_write ?_ rfl (windowWrite_inBuf (g n) hn))
    exact hc

/-- The whole of WRIN: one step writes IN_LEN, and the byte writes fill IN_BUF. -/
theorem run_wrin {s : State} (hs : s.inv = true) {bytes : List Byte} (hlen : bytes.length ≤ s.cfg.inCap)
    {rest : List BusAct} (ha : s.agenda = ScriptStmt.expand s.cfg.windowBase (.wrin bytes) ++ rest) :
    Host.Core.run Sys2Proof.core (bytes.length + 1) s =
      .next { s with
        req := { s.req with
          inLen := BitVec.ofNat 8 bytes.length
          inBuf := s.req.inBuf.fill (fun i => bytes.getD i 0) bytes.length }
        agenda := rest } := by
  have hc := State.inv_code hs
  obtain ⟨-, hcap⟩ := State.inv_inCap hs
  have hcount : BitVec.ofNat 64 bytes.length = (BitVec.ofNat 8 bytes.length).setWidth 64 :=
    BitVec.eq_of_toNat_eq (by simp; omega)
  have hfits : (BitVec.ofNat 8 bytes.length).toNat ≤ s.cfg.inCap := (Nat.mod_le _ _).trans hlen
  rw [expand_wrin, hcount] at ha
  rw [run_succ bytes.length (step_write hc ha (windowWrite_inLen hfits))]
  refine run_inBufWrites ?_ _ ?_ rfl
  · exact hc
  · exact hlen

/-- Settles O49, from the state WRIN leaves and the reads of a filled buffer. -/
theorem wrinLoadsTheInput : Obligations.WrinLoadsTheInput := by
  intro s bytes rest hs hlen ha
  obtain ⟨-, hcap⟩ := State.inv_inCap hs
  obtain ⟨hwf, -⟩ := State.inv_inBuf hs
  have hcount : (BitVec.ofNat 8 bytes.length).toNat = bytes.length := Nat.mod_eq_of_lt (by omega)
  refine ⟨_, run_wrin hs hlen ha, rfl, hcount, fun i hi => ?_, fun i hi => Memory.read_fill_ge _ _ hi,
    rfl, rfl, rfl, rfl, rfl, rfl, rfl, rfl⟩
  exact (Memory.read_fill_lt hwf _ hi).trans (List.getD_eq_getElem _ _ hi)

/-! ### MOVE -/

/-- The byte copies of MOVE: a read of OUT_BUF[i] and its write to IN_BUF[i], for i < n. -/
def copyActs (base n : Nat) : List BusAct :=
  (List.range n).flatMap fun i => [.read (base + (0x200 + i)), .writeBack (base + (0x100 + i))]

theorem moveActs_eq (base n : Nat) :
    moveActs base n = copyActs base n ++ [.write (base + 0x03) (BitVec.ofNat 64 n)] := by
  simp only [moveActs, copyActs, Nat.add_assoc]

/-- OUT_BUF[i] as the host reads it (R73). -/
theorem windowRead_outBuf {s : State} {i : Nat} (h : i < 26) (hcap : s.cfg.inCap ≤ 255) :
    windowRead (0x200 + i) s = (s.resp.outBuf.read i).setWidth 64 := by
  rw [windowRead, entryAt_outBuf h hcap, readEntry]

/-- One copy of MOVE: a step reads OUT_BUF[i], and a step writes it to IN_BUF[i]. -/
theorem run_copy {s : State} (hc : codeReserved s.resp.code = false) (hcap : s.cfg.inCap ≤ 255) {i : Nat} (hout : i < 26)
    (hin : i < s.cfg.inCap) {rest : List BusAct}
    (ha : s.agenda = .read (s.cfg.windowBase + (0x200 + i)) :: .writeBack (s.cfg.windowBase + (0x100 + i)) :: rest) :
    ∃ d, Host.Core.run Sys2Proof.core 2 s =
      .next { s with
        req := { s.req with inBuf := s.req.inBuf.write i (s.resp.outBuf.read i) }, agenda := rest, hostData := d } := by
  have hread := step_read hc ha
  rw [windowRead_outBuf hout hcap] at hread
  rw [run_succ 1 hread]
  refine ⟨_, run_one (step_writeBack ?_ rfl (windowWrite_inBuf _ hin))⟩
  exact hc

/-- The copies fill IN_BUF from OUT_BUF, two steps a byte. -/
theorem run_copyActs {s : State} (hs : s.inv = true) {n : Nat} (hn : n ≤ 26) {rest : List BusAct}
    (ha : s.agenda = copyActs s.cfg.windowBase n ++ rest) :
    ∃ d, Host.Core.run Sys2Proof.core (2 * n) s =
      .next { s.fillInBuf s.resp.outBuf.read n with agenda := rest, hostData := d } := by
  have hc := State.inv_code hs
  obtain ⟨hlo, hcap⟩ := State.inv_inCap hs
  induction n generalizing rest with
  | zero =>
    obtain rfl : s.agenda = rest := ha
    exact ⟨s.hostData, rfl⟩
  | succ n ih =>
    rw [copyActs, List.range_succ, List.flatMap_append, List.append_assoc] at ha
    obtain ⟨_, hrun⟩ := ih (by omega) ha
    rw [Nat.mul_succ, run_add 2 hrun]
    refine run_copy ?_ ?_ hn ?_ rfl
    · exact hc
    · exact hcap
    · exact hn.trans hlo

/-- A MOVE puts its accesses before the acts that follow, as many copies as OUT_LEN says (R105). -/
theorem step_move {s : State} {rest : List BusAct} (hc : codeReserved s.resp.code = false)
    (ha : s.agenda = .move :: rest) :
    step s = .next { s with
      agenda := copyActs s.cfg.windowBase s.resp.outLen.toNat ++
        .write (s.cfg.windowBase + 0x03) (s.resp.outLen.setWidth 64) :: rest
      hostData := s.resp.outLen.setWidth 64 } := by
  have hread : windowRead 0x09 { s with agenda := rest } = s.resp.outLen.setWidth 64 := rfl
  have hlen : (s.resp.outLen.setWidth 64).toNat = s.resp.outLen.toNat :=
    BitVec.toNat_setWidth_of_le (by decide)
  rw [step_act hc ha, hostMove, hread, hlen, moveActs_eq, List.append_assoc, BitVec.ofNat_toNat]
  rfl

/-- The whole of MOVE: one step reads OUT_LEN, the copies fill IN_BUF from OUT_BUF, and the last step writes IN_LEN. -/
theorem run_move {s : State} (hs : s.inv = true) {rest : List BusAct} (ha : s.agenda = .move :: rest) :
    ∃ d, Host.Core.run Sys2Proof.core (2 * s.resp.outLen.toNat + 2) s =
      .next { s with
        req := { s.req with
          inLen := s.resp.outLen, inBuf := s.req.inBuf.fill s.resp.outBuf.read s.resp.outLen.toNat }
        agenda := rest
        hostData := d } := by
  have hc := State.inv_code hs
  have hout := State.inv_outLen hs
  obtain ⟨hlo, -⟩ := State.inv_inCap hs
  obtain ⟨d, hcopies⟩ := run_copyActs (s := { s with
      agenda := copyActs s.cfg.windowBase s.resp.outLen.toNat ++
        .write (s.cfg.windowBase + 0x03) (s.resp.outLen.setWidth 64) :: rest
      hostData := s.resp.outLen.setWidth 64 }) hs hout rfl
  rw [run_succ (2 * s.resp.outLen.toNat + 1) (step_move hc ha), run_add 1 hcopies]
  refine ⟨d, run_one (step_write ?_ rfl (windowWrite_inLen ?_))⟩
  · exact hc
  · exact hout.trans hlo

/-- Settles O50, from the state MOVE leaves and the reads of a filled buffer. -/
theorem moveChainsOutputToInput : Obligations.MoveChainsOutputToInput := by
  intro s rest hs ha
  obtain ⟨hwf, -⟩ := State.inv_inBuf hs
  obtain ⟨d, hrun⟩ := run_move hs ha
  exact ⟨_, hrun, rfl, rfl, fun _ hi => Memory.read_fill_lt hwf _ hi, fun _ hi => Memory.read_fill_ge _ _ hi,
    rfl, rfl, rfl, rfl, rfl, rfl, rfl, rfl⟩

/-! ### The pseudo-instructions -/

/-- What follows the first command of a pseudo-instruction: the check, MOVE and the second command (R106). -/
def chainTail (base : Nat) (second : Instr) : List BusAct :=
  .stopUnlessOk (1 + (runActs base second).length) :: .move :: runActs base second

/-- The check of a pseudo-instruction either goes on to MOVE and the second command or leaves the acts after them (R106). -/
theorem step_chainTail {s : State} {base : Nat} {second : Instr} {rest : List BusAct}
    (hc : codeReserved s.resp.code = false) (ha : s.agenda = chainTail base second ++ rest) :
    (s.resp.code ≠ 0 → step s = .next { s with agenda := rest, hostData := windowRead 0x02 s }) ∧
      (s.resp.code = 0 →
        step s = .next { s with agenda := .move :: (runActs base second ++ rest), hostData := windowRead 0x02 s }) := by
  refine ⟨fun herr => ?_, step_stopUnlessOk_ok hc ha⟩
  have hdrop : (.move :: (runActs base second ++ rest)).drop (1 + (runActs base second).length) = rest :=
    List.drop_left' (Nat.add_comm _ _)
  exact hdrop ▸ step_stopUnlessOk_error hc ha herr

/-- Settles O51: after its first command each pseudo-instruction has a check and its second command. -/
theorem pseudoInstructionsStopAtAnError : Obligations.PseudoInstructionsStopAtAnError := by
  refine ⟨fun p first second hp base tail htail => ?_, fun base i => rfl⟩
  have hexpand : p.expand base = runActs base first ++ chainTail base second := by
    simp only [List.mem_cons, Prod.mk.injEq, List.not_mem_nil, or_false] at hp
    obtain ⟨rfl, rfl, rfl⟩ | ⟨rfl, rfl, rfl⟩ := hp <;> rfl
  rw [hexpand, List.drop_left] at htail
  subst htail
  exact ⟨hexpand, fun s rest _ hc ha => step_chainTail hc ha⟩

end Sys2Proof.Machine
end

section
/-! PROOFS. The quantizers and round trips of 40_primitives.md: R139 for every linear field, R152's error bounds for the linear
fields and the sign-magnitude temperatures, and R153 for Format 5. -/

namespace Sys2Proof.Machine

/-! ### The rows of R131 -/

/-- What every linear row of R131 has: a positive scale; a width that fits its raw type; unless it is one of the two parts of
the power-info word, no other field in its bytes; a sentinel, if any, that the field can hold; values that fit a register. -/
structure Field.Regular (f : Field) : Prop where
  scale_pos : 0 < f.scale
  bits_of_signed : f.signed = true → f.bits = 16
  fills_bytes : f.masked = false → f.shift = 0 ∧ f.bits = 8 * f.bytes
  masked_unsigned : f.masked = true → f.signed = false
  sentinel_fits : ∀ snt ∈ f.sentinel, f.lo ≤ snt ∧ snt ≤ f.hi
  value_fits : -(2 ^ 63) ≤ f.valueOf f.lo ∧ f.valueOf f.hi < 2 ^ 63

theorem regular_of_mem_linearFields {f : Field} (hf : f ∈ linearFields) : f.Regular where
  scale_pos := (by decide : ∀ f ∈ linearFields, 0 < f.scale) f hf
  bits_of_signed := (by decide : ∀ f ∈ linearFields, f.signed = true → f.bits = 16) f hf
  fills_bytes := (by decide : ∀ f ∈ linearFields, f.masked = false → f.shift = 0 ∧ f.bits = 8 * f.bytes) f hf
  masked_unsigned := (by decide : ∀ f ∈ linearFields, f.masked = true → f.signed = false) f hf
  sentinel_fits := (by decide : ∀ f ∈ linearFields, ∀ snt ∈ f.sentinel, f.lo ≤ snt ∧ snt ≤ f.hi) f hf
  value_fits :=
    (by decide : ∀ f ∈ linearFields, -(2 ^ 63) ≤ f.valueOf f.lo ∧ f.valueOf f.hi < 2 ^ 63) f hf

/-! ### The quantizer -/

theorem Slot.unit_ne_zero (s : Slot) : s.unit ≠ 0 := by
  cases s <;> decide

/-- Settles O43: the unit of the slot cancels, and the integer division is the truncated rational quotient. -/
theorem quantizersTruncateTheExactQuotient : Obligations.QuantizersTruncateTheExactQuotient := by
  intro f hf v
  have hunit : (f.slot.unit : ℚ) ≠ 0 := Int.cast_ne_zero.mpr f.slot.unit_ne_zero
  rw [div_sub_div_same, div_div_div_cancel_right₀ hunit, ← Int.cast_sub,
    trunc_div _ (regular_of_mem_linearFields hf).scale_pos, Field.quantize]

/-- Quantizing the value of a raw value gives it back (R137, R139). -/
theorem Field.quantize_valueOf {f : Field} (hscale : 0 < f.scale) (raw : ℤ) : f.quantize (f.valueOf raw) = raw := by
  rw [Field.quantize, Field.valueOf, add_sub_cancel_right, tdiv, Int.mul_tdiv_cancel _ hscale.ne']

/-! ### The raw value in the frame -/

section
variable {f : Field} (hf : f.Regular)
include hf

theorem Field.lo_hi_of_masked (hm : f.masked = true) : f.lo = 0 ∧ f.hi = 2 ^ f.bits - 1 := by
  simp [Field.lo, Field.hi, hf.masked_unsigned hm]

/-- A field holds `2 ^ bits` consecutive raw values (R131). -/
theorem Field.hi_eq : f.hi = f.lo + 2 ^ f.bits - 1 := by
  unfold Field.hi Field.lo
  cases hs : f.signed with
  | true => simp [hf.bits_of_signed hs]
  | false => simp

/-- The raw value that is read is one the field can hold (R131, R132). -/
theorem Field.raw_fits (m : Memory) : f.lo ≤ f.raw m ∧ f.raw m ≤ f.hi := by
  have hlt := Nat.mod_lt (memRead m f.base f.bytes >>> f.shift) (Nat.two_pow_pos f.bits)
  unfold Field.lo Field.hi Field.raw
  cases hs : f.signed with
  | true =>
    rw [hf.bits_of_signed hs] at hlt ⊢
    exact sx16_bounds hlt
  | false =>
    simp only [Bool.false_eq_true, if_false]
    exact ⟨Int.natCast_nonneg _, Int.le_sub_one_of_lt (mod_cast hlt)⟩

/-- A field that fills its bytes holds there its raw value modulo their size (R132, R138). -/
theorem Field.raw_emod (hm : f.masked = false) (m : Memory) :
    f.raw m % 2 ^ (8 * f.bytes) = memRead m f.base f.bytes := by
  obtain ⟨hshift, hbits⟩ := hf.fills_bytes hm
  have hlt : memRead m f.base f.bytes < 2 ^ (8 * f.bytes) := by
    rw [pow_mul]
    exact memRead_lt m f.base f.bytes
  unfold Field.raw
  rw [hshift, hbits, Nat.shiftRight_zero, Nat.mod_eq_of_lt hlt]
  cases hs : f.signed with
  | true =>
    rw [← hbits, hf.bits_of_signed hs] at hlt ⊢
    exact sx16_emod hlt
  | false =>
    simp only [Bool.false_eq_true, if_false]
    exact Int.emod_eq_of_lt (Int.natCast_nonneg _) (mod_cast hlt)

/-- Two raw values the field can hold are equal when they agree modulo the size of the field's bytes. -/
theorem Field.raw_eq_of_emod_eq (hm : f.masked = false) {x y : ℤ} (hx : f.lo ≤ x ∧ x ≤ f.hi) (hy : f.lo ≤ y ∧ y ≤ f.hi)
    (h : x % 2 ^ (8 * f.bytes) = y % 2 ^ (8 * f.bytes)) : x = y := by
  have hhi := Field.hi_eq hf
  rw [← (hf.fills_bytes hm).2] at h
  have hclose : |y - x| < 2 ^ f.bits := abs_lt.mpr ⟨by omega, by omega⟩
  exact (sub_eq_zero.mp (Int.eq_zero_of_abs_lt_dvd (Int.ModEq.dvd h) hclose)).symm

/-- A decoded value fits its register (R46). -/
theorem Field.decode_fits {m : Memory} {v : ℤ} (h : f.decode m = some v) : -(2 ^ 63) ≤ v ∧ v < 2 ^ 63 := by
  obtain ⟨hlo, hhi⟩ := Field.raw_fits hf m
  obtain ⟨hvlo, hvhi⟩ := hf.value_fits
  have hmono : ∀ {a b : ℤ}, a ≤ b → f.valueOf a ≤ f.valueOf b := fun hab =>
    add_le_add_left (mul_le_mul_of_nonneg_right hab hf.scale_pos.le) _
  rw [Field.decode] at h
  split at h
  · cases h
  · cases h
    exact ⟨hvlo.trans (hmono hlo), (hmono hhi).trans_lt hvhi⟩

/-- A present value whose raw is in range is encoded as that raw value, in a masked field too (R138, R142). -/
theorem Field.encodeRaw_present {q : Request} {v : ℤ} (hv : q.slotIn f.slot = some v)
    (hr : f.lo ≤ f.quantize v ∧ f.quantize v ≤ f.hi) : f.encodeRaw q = some (f.quantize v) := by
  rw [Field.encodeRaw, hv]
  cases hm : f.masked with
  | true =>
    obtain ⟨hlo, hhi⟩ := Field.lo_hi_of_masked hf hm
    rw [hlo, hhi] at hr
    simp only [if_true]
    rw [Int.emod_eq_of_lt hr.1 (by omega)]
  | false => simp [hr]

/-- Encoding the slot that was decoded from a field gives back the field's raw value: the sentinel for an absent slot, and
else the raw value of the reported one (R153). -/
theorem Field.encodeRaw_of_decode {q : Request} {m : Memory} (h : q.slotIn f.slot = f.decode m) :
    f.encodeRaw q = some (f.raw m) := by
  rw [Field.decode] at h
  split at h
  · next hsnt => rw [Field.encodeRaw, h, hsnt]
  · have hq := Field.quantize_valueOf hf.scale_pos (f.raw m)
    rw [Field.encodeRaw_present hf h (by rw [hq]; exact Field.raw_fits hf m), hq]

/-- A masked field is never refused, and what it writes is in its range (R142). -/
theorem Field.encodeRaw_masked_fits (hm : f.masked = true) (hs : f.sentinel.isSome = true) (q : Request) :
    ∃ raw, f.encodeRaw q = some raw ∧ f.lo ≤ raw ∧ raw ≤ f.hi := by
  rw [Field.encodeRaw]
  cases q.slotIn f.slot with
  | none =>
    obtain ⟨snt, hsnt⟩ := Option.isSome_iff_exists.mp hs
    exact ⟨snt, hsnt, hf.sentinel_fits snt hsnt⟩
  | some v =>
    obtain ⟨hlo, hhi⟩ := Field.lo_hi_of_masked hf hm
    have hpos : (0 : ℤ) < 2 ^ f.bits := by positivity
    rw [hlo, hhi]
    exact ⟨f.quantize v % 2 ^ f.bits, by simp [hm], Int.emod_nonneg _ hpos.ne',
      Int.le_sub_one_of_lt (Int.emod_lt_of_pos _ hpos)⟩

end

/-! ### The two parts of the power-info word -/

theorem f5BAT_regular : f5BAT.Regular := regular_of_mem_linearFields (by decide)

theorem f5TX_regular : f5TX.Regular := regular_of_mem_linearFields (by decide)

/-- The parts of the power-info word, in their ranges, are the upper and the lower bits of one number (R142, R202). -/
theorem powerPart_eq {q : Request} {b t : ℤ} (hb : f5BAT.encodeRaw q = some b) (ht : f5TX.encodeRaw q = some t)
    (hb' : f5BAT.lo ≤ b ∧ b ≤ f5BAT.hi) (ht' : f5TX.lo ≤ t ∧ t ≤ f5TX.hi) :
    powerPart q = some (beBytes 2 (b * 32 + t).toNat) := by
  have hb2 : 0 ≤ b ∧ b ≤ 2047 := hb'
  have ht2 : 0 ≤ t ∧ t ≤ 31 := ht'
  have hbmod : b % 2048 = b := by omega
  have htmod : t % 32 = t := by omega
  rw [powerPart_spec (b := b) (t := t) (hb.trans (congrArg some hbmod.symm)) (ht.trans (congrArg some htmod.symm)), hbmod,
    htmod, Int.emod_eq_of_lt] <;> omega

/-- Battery is the word without its low five bits (R133). -/
theorem f5BAT_raw (m : Memory) : f5BAT.raw m = (memRead m 13 2 / 32 : ℕ) := by
  have hword := memRead_lt m 13 2
  have hraw : f5BAT.raw m = (memRead m 13 2 >>> 5 % 2048 : ℕ) := rfl
  rw [hraw, Nat.shiftRight_eq_div_pow]
  omega

/-- Tx power is the word's low five bits (R133). -/
theorem f5TX_raw (m : Memory) : f5TX.raw m = (memRead m 13 2 % 32 : ℕ) := rfl

/-! ### What a buffer holds where a field was written -/

/-- The bytes `bs` stand in the buffer from index `a` on. -/
def Memory.Holds (m : Memory) (a : Nat) (bs : List Byte) : Prop := ∀ k, ∀ h : k < bs.length, m.read (a + k) = bs[k]

theorem memRead_of_holds {m : Memory} {a n v : Nat} (hv : v < 256 ^ n) (h : m.Holds a (beBytes n v)) :
    memRead m a n = v := by
  refine memRead_of_beBytes hv fun k hk => ?_
  rw [← beBytes_getElem n v k (by simpa using hk)]
  exact h k _

/-- A field that fills its bytes reads back the raw value that was written (R138, R132). -/
theorem Field.encode_raw_reads_back {f : Field} (hf : f.Regular) (hm : f.masked = false) {q : Request} {v : ℤ}
    (hv : q.slotIn f.slot = some v) (hr : f.lo ≤ f.quantize v ∧ f.quantize v ≤ f.hi) :
    ∃ bs, f.encode q = some bs ∧ bs.length = f.bytes ∧ ∀ m : Memory, m.Holds f.base bs → f.raw m = f.quantize v := by
  refine ⟨beBytes f.bytes (f.quantize v % 2 ^ (8 * f.bytes)).toNat, ?_, beBytes_length _ _, fun m hold => ?_⟩
  · rw [Field.encode, Field.encodeRaw_present hf hv hr, Option.map_some]
  · have hpos : (0 : ℤ) < 2 ^ (8 * f.bytes) := by positivity
    have hnonneg := Int.emod_nonneg (f.quantize v) hpos.ne'
    have hlt := Int.emod_lt_of_pos (f.quantize v) hpos
    refine Field.raw_eq_of_emod_eq hf hm (Field.raw_fits hf m) hr ?_
    rw [Field.raw_emod hf hm, memRead_of_holds _ hold, Int.toNat_of_nonneg hnonneg]
    rw [show (256 : ℕ) = 2 ^ 8 from rfl, ← pow_mul]
    zify
    rwa [Int.toNat_of_nonneg hnonneg]

/-- Battery and tx power read back from the power-info word that was written (R142, R133). -/
theorem powerPart_raws_read_back {q : Request} {b t : ℤ} (hb : f5BAT.encodeRaw q = some b) (ht : f5TX.encodeRaw q = some t)
    (hb' : f5BAT.lo ≤ b ∧ b ≤ f5BAT.hi) (ht' : f5TX.lo ≤ t ∧ t ≤ f5TX.hi) :
    ∃ bs, powerPart q = some bs ∧ bs.length = 2 ∧ ∀ m : Memory, m.Holds 13 bs → f5BAT.raw m = b ∧ f5TX.raw m = t := by
  refine ⟨_, powerPart_eq hb ht hb' ht', beBytes_length _ _, fun m hold => ?_⟩
  have hb2 : 0 ≤ b ∧ b ≤ 2047 := hb'
  have ht2 : 0 ≤ t ∧ t ≤ 31 := ht'
  rw [f5BAT_raw, f5TX_raw, memRead_of_holds (by omega) hold]
  omega

/-- The masked rows are the two parts of the power-info word (R142). -/
theorem eq_f5BAT_or_f5TX_of_masked {f : Field} (hf : f ∈ linearFields) (hm : f.masked = true) : f = f5BAT ∨ f = f5TX :=
  (by decide : ∀ f ∈ linearFields, f.masked = true → f = f5BAT ∨ f = f5TX) f hf hm

/-- A present value whose raw is in range is written, and its raw value is read back: from the field's own bytes, or from the
power-info word, whose other part is never refused. -/
theorem Field.written_raw_reads_back {f : Field} (hf : f ∈ linearFields) {q : Request} {v : ℤ}
    (hv : q.slotIn f.slot = some v) (hr : f.lo ≤ f.quantize v ∧ f.quantize v ≤ f.hi) :
    ∃ bs, (if f.masked then powerPart q else f.encode q) = some bs ∧ bs.length = f.bytes ∧
      ∀ m : Memory, m.Holds f.base bs → f.raw m = f.quantize v := by
  have hreg := regular_of_mem_linearFields hf
  cases hm : f.masked with
  | false => exact Field.encode_raw_reads_back hreg hm hv hr
  | true =>
    have henc := Field.encodeRaw_present hreg hv hr
    obtain rfl | rfl := eq_f5BAT_or_f5TX_of_masked hf hm
    · obtain ⟨t, ht, ht'⟩ := Field.encodeRaw_masked_fits f5TX_regular rfl rfl q
      obtain ⟨bs, hbs, hlen, hread⟩ := powerPart_raws_read_back henc ht hr ht'
      exact ⟨bs, hbs, hlen, fun m hold => (hread m hold).1⟩
    · obtain ⟨b, hb, hb'⟩ := Field.encodeRaw_masked_fits f5BAT_regular rfl rfl q
      obtain ⟨bs, hbs, hlen, hread⟩ := powerPart_raws_read_back hb henc hb' hr
      exact ⟨bs, hbs, hlen, fun m hold => (hread m hold).2⟩

/-- Settles O44: the raw value that was written is read back, and the value of a quantized raw value is less than one step
away. -/
theorem linearQuantizationErrorIsUnderAStep : Obligations.LinearQuantizationErrorIsUnderAStep := by
  intro f hf q v hv hlo hhi
  obtain ⟨bs, hbs, hlen, hread⟩ := Field.written_raw_reads_back hf hv ⟨hlo, hhi⟩
  refine ⟨bs, hbs, hlen, fun m hold => ?_⟩
  rw [Field.decode_of_raw (hread m hold)]
  exact ⟨fun hsnt => if_pos hsnt, fun hsnt =>
    ⟨_, if_neg hsnt, Field.quantize_error (regular_of_mem_linearFields hf).scale_pos v⟩⟩

/-! ### Sign-magnitude temperature -/

/-- The sign bit and the seven bits of whole degrees of byte 2 are read back (R143, R145). -/
theorem smag_byte_fields : ∀ w ≤ 127, ∀ neg : Bool,
    (((if neg then 0x80#8 else 0x00#8) ||| BitVec.ofNat 8 w).extractLsb' 0 7).toNat = w ∧
      ((if neg then 0x80#8 else 0x00#8) ||| BitVec.ofNat 8 w).getLsbD 7 = neg := by
  decide

/-- What a decode reports of a written sign, whole degrees and hundredths, when it reports a value (R143, R144). -/
theorem smagDecode_of_smagBytes {neg : Bool} {w f : Nat} {b2 b3 : Byte} {frac : Bool} {v' : ℤ} (hw : w ≤ 127) (hf : f < 256)
    (hbytes : smagBytes neg w f = [b2, b3]) (h : smagDecode b2 b3 frac = some v') :
    v' = if neg then -((w : ℤ) * 1000000 + if frac then (f : ℤ) * 10000 else 0)
      else (w : ℤ) * 1000000 + if frac then (f : ℤ) * 10000 else 0 := by
  obtain ⟨hwhole, hsign⟩ := smag_byte_fields w hw neg
  have hhundredths : (BitVec.ofNat 8 f).toNat = f := Nat.mod_eq_of_lt hf
  unfold smagDecode at h
  split at h
  · cases h
  · simp only [smagBytes, List.cons.injEq, and_true] at hbytes
    obtain ⟨rfl, rfl⟩ := hbytes
    rw [hwhole, hsign, hhundredths] at h
    exact (Option.some.inj h).symm

/-- An encode with fraction writes the magnitude to the nearest hundredth of a degree (R145). -/
theorem smagEncodeFrac_some {src : SignSource} {v : ℤ} {bs : List Byte} (h : smagEncodeFrac src v = some bs) :
    ∃ w f, w ≤ 127 ∧ f < 100 ∧ smagBytes (smagNeg src v) w f = bs ∧ v.natAbs ≤ w * 1000000 + f * 10000 + 5000 ∧
      w * 1000000 + f * 10000 ≤ v.natAbs + 5000 := by
  unfold smagEncodeFrac at h
  simp only at h
  split_ifs at h with hcarry
  · exact ⟨_, _, by omega, by omega, Option.some.inj h, by omega, by omega⟩
  · exact ⟨_, _, by omega, by omega, Option.some.inj h, by omega, by omega⟩

/-- An encode of whole degrees drops the fraction of the magnitude (R146). -/
theorem smagEncodeWhole_some {src : SignSource} {v : ℤ} {bs : List Byte} (h : smagEncodeWhole src v = some bs) :
    ∃ w, w ≤ 127 ∧ smagBytes (smagNeg src v) w 0 = bs ∧ w * 1000000 ≤ v.natAbs ∧ v.natAbs < w * 1000000 + 1000000 := by
  unfold smagEncodeWhole at h
  simp only at h
  split at h
  · cases h
  · exact ⟨_, by omega, Option.some.inj h, by omega, by omega⟩

/-- Under SIGN_SOURCE = VALUE a value and a magnitude given its sign differ as the magnitudes do (R147). -/
theorem abs_sub_signed (v mag : ℤ) : |v - if smagNeg .value v then -mag else mag| = |(v.natAbs : ℤ) - mag| := by
  simp only [smagNeg, decide_eq_true_eq]
  split
  · rw [← abs_neg]
    congr 1
    omega
  · congr 1
    omega

/-- Settles O45: the magnitude is rounded to a hundredth of a degree, or its fraction dropped, and the sign is kept. -/
theorem temperatureErrorIsBounded : Obligations.TemperatureErrorIsBounded := by
  refine fun v v' b2 b3 frac => ⟨fun henc hdec => ?_, fun henc hdec => ?_⟩
  · obtain ⟨w, f, hw, hf, hbytes, habove, hbelow⟩ := smagEncodeFrac_some henc
    rw [smagDecode_of_smagBytes hw (by omega) hbytes hdec, abs_sub_signed, if_pos rfl, abs_le]
    omega
  · obtain ⟨w, hw, hbytes, hbelow, habove⟩ := smagEncodeWhole_some henc
    rw [smagDecode_of_smagBytes hw (by omega) hbytes hdec, abs_sub_signed, Nat.cast_zero, zero_mul, ite_self, abs_lt]
    omega

/-! ### The bytes MemRead read -/

/-- The low bytes of MemRead drop out of it by a shift (R12). -/
theorem memRead_shiftRight (m : Memory) (a j k : Nat) : memRead m a (j + k) >>> (8 * k) = memRead m a j := by
  induction k with
  | zero => rfl
  | succ k ih =>
    have hbyte := (m.read (a + (j + k))).isLt
    have hlow : memRead m a (j + (k + 1)) >>> 8 = memRead m a (j + k) := by
      rw [← Nat.add_assoc, memRead_succ, Nat.shiftRight_eq_div_pow]
      omega
    rw [Nat.mul_succ, Nat.add_comm (8 * k), Nat.shiftRight_add, hlow, ih]

/-- The `n` bytes of a buffer from index `a` on. -/
def Memory.slice (m : Memory) (a n : Nat) : List Byte := (List.range n).map fun k => m.read (a + k)

/-- MemWrite of what MemRead read is the bytes that were read (R12). -/
theorem beBytes_memRead (m : Memory) (a n : Nat) : beBytes n (memRead m a n) = m.slice a n := by
  refine List.ext_getElem (by simp [Memory.slice]) fun k hk _ => ?_
  have hkn : k < n := by simpa using hk
  have hshift := memRead_shiftRight m a (k + 1) (n - 1 - k)
  rw [show k + 1 + (n - 1 - k) = n by omega] at hshift
  rw [beBytes_getElem, hshift, memRead_succ]
  refine BitVec.eq_of_toNat_eq ?_
  have hbyte := (m.read (a + k)).isLt
  simp only [Memory.slice, List.getElem_map, List.getElem_range, BitVec.toNat_ofNat]
  omega

/-! ### Format 5 -/

/-- A request with a decoded reading in its registers has the slots of that reading, if they fit the registers (R39, R45). -/
theorem slotIn_of_reading {q : Request} {tag : Byte} {slots : Slot → Option ℤ} {k : Slot}
    (hp : q.rdPresent = (readingResponse tag slots).rdPresent) (hval : q.rdValue = (readingResponse tag slots).rdValue)
    (hfit : ∀ v, slots k = some v → -(2 ^ 63) ≤ v ∧ v < 2 ^ 63) : q.slotIn k = slots k := by
  rw [Request.slotIn, hp, hval]
  cases hk : slots k with
  | none => simp [readingResponse, hk]
  | some v =>
    obtain ⟨hlo, hhi⟩ := hfit v hk
    have hexact : (BitVec.ofInt 64 v).toInt = v := BitVec.toInt_ofInt_eq_self (by decide) hlo hhi
    simp [readingResponse, hk, hexact]

/-- An encode of the slot decoded from a field that fills its bytes writes back those bytes (R153). -/
theorem Field.encode_of_decode {f : Field} (hf : f.Regular) (hm : f.masked = false) {q : Request} {m : Memory}
    (h : q.slotIn f.slot = f.decode m) : f.encode q = some (m.slice f.base f.bytes) := by
  rw [Field.encode, Field.encodeRaw_of_decode hf h, Option.map_some, Field.raw_emod hf hm, Int.toNat_natCast,
    beBytes_memRead]

/-- An encode of both slots of the power-info word writes back its two bytes (R153). -/
theorem powerPart_of_decode {q : Request} {m : Memory} (hb : q.slotIn .batteryVoltage = f5BAT.decode m)
    (ht : q.slotIn .txPower = f5TX.decode m) : powerPart q = some (m.slice 13 2) := by
  have hword : (f5BAT.raw m * 32 + f5TX.raw m).toNat = memRead m 13 2 := by
    rw [f5BAT_raw, f5TX_raw]
    omega
  rw [powerPart_eq (Field.encodeRaw_of_decode f5BAT_regular hb) (Field.encodeRaw_of_decode f5TX_regular ht)
    (Field.raw_fits f5BAT_regular m) (Field.raw_fits f5TX_regular m), hword, beBytes_memRead]

/-- The frame of a reading decoded from a tag-5 frame is that frame (R153, R203). -/
theorem frameF5_of_slotsF5 {q : Request} {m : Memory} (htag : m.read 0 = 0x05#8)
    (hslots : ∀ f ∈ linearFields, slotsF5 m f.slot = f.decode m → q.slotIn f.slot = f.decode m) :
    frameF5 q = some (m.slice 0 24) := by
  have part : ∀ f ∈ linearFields, f.masked = false → slotsF5 m f.slot = f.decode m →
      f.encode q = some (m.slice f.base f.bytes) := fun f hf hm hk =>
    Field.encode_of_decode (regular_of_mem_linearFields hf) hm (hslots f hf hk)
  rw [frameF5, part f5T (by decide) rfl rfl, part f5H (by decide) rfl rfl, part f5P (by decide) rfl rfl,
    part f5AX (by decide) rfl rfl, part f5AY (by decide) rfl rfl, part f5AZ (by decide) rfl rfl,
    powerPart_of_decode (hslots f5BAT (by decide) rfl) (hslots f5TX (by decide) rfl),
    part f5MOV (by decide) rfl rfl, part f5SEQ (by decide) rfl rfl, part f5ID (by decide) rfl rfl, ← htag]
  rfl

/-- A 24-byte tag-5 frame decodes to its reading (R190). -/
theorem decodeF5Response_reading {q : Request} (hlen : q.inLen.toNat = 24) (htag : q.byte 0 = 0x05#8) :
    decodeF5Response q = readingResponse 0x05#8 (slotsF5 q.inBuf) :=
  (if_neg (not_not.mpr hlen)).trans (if_neg (not_not.mpr htag))

/-- Settles O46: each field is encoded as the raw value it was decoded from, so its bytes are the ones that were read. -/
theorem formatFiveRoundTripsEveryByte : Obligations.FormatFiveRoundTripsEveryByte := by
  intro s t s' q q' hq hlen htag hdec hq' hvalid hpresent hvalue
  obtain rfl : s.complete (readingResponse 0x05#8 (slotsF5 q.inBuf)) = t := by
    rw [← decodeF5Response_reading hlen htag]
    exact Host.Outcome.next.inj ((exec_some .decodeF5 hq).symm.trans hdec)
  have hframe : frameF5 q' = some (q.inBuf.slice 0 24) :=
    frameF5_of_slotsF5 htag fun f hf hk => hk ▸ slotIn_of_reading hpresent hvalue fun v hv =>
      Field.decode_fits (regular_of_mem_linearFields hf) (hk ▸ hv)
  refine ⟨_, (exec_encode hq' rfl).2.2 _ hvalid hframe, bytesResponse_isFrame _ (by simp [Memory.slice]) (by decide),
    fun k hk => ?_⟩
  simp [bytesResponse, Memory.slice, hk, Request.byte]

end Sys2Proof.Machine
end

section
/-! PROOFS. The Format Detector of 41_detector.md: R180's three outcomes, by IN_LEN and byte 0. -/

namespace Sys2Proof.Machine

/-- The tags with a frame length are the four known formats (R115). -/
theorem frameLength_isSome_iff (tag : Byte) :
    (frameLength tag).isSome = true ↔ tag ∈ [0x02#8, 0x03#8, 0x04#8, 0x05#8] := by
  unfold frameLength
  split_ifs with h2 h3 h4 h5
  · simp [h2]
  · simp [h3]
  · simp [h4]
  · simp [h5]
  · simpa using ⟨h2, h3, h4, h5⟩

theorem detectResponse_empty {q : Request} (hlen : q.inLen = 0) : detectResponse q = errorResponse .emptyInput :=
  if_pos hlen

theorem detectResponse_known {q : Request} (hlen : q.inLen ≠ 0) (htag : q.byte 0 ∈ [0x02#8, 0x03#8, 0x04#8, 0x05#8]) :
    detectResponse q = tagResponse (q.byte 0) :=
  (if_neg hlen).trans (if_pos ((frameLength_isSome_iff _).mpr htag))

theorem detectResponse_unknown {q : Request} (hlen : q.inLen ≠ 0)
    (htag : q.byte 0 ∉ [0x02#8, 0x03#8, 0x04#8, 0x05#8]) : detectResponse q = errorResponse .unknownFormat :=
  (if_neg hlen).trans (if_neg fun hsome => htag ((frameLength_isSome_iff _).mp hsome))

/-- Settles O30: the pending DETECT completes with its response, one of three by IN_LEN and byte 0. -/
theorem detectClassifiesByTheTag : Obligations.DetectClassifiesByTheTag := by
  refine ⟨decode_encode .detect, fun s q hq => ?_⟩
  have hexec : exec .detect s = .next (s.complete (detectResponse q)) := exec_some .detect hq
  refine ⟨fun hlen => ?_, fun hlen htag => ?_, fun hlen htag => ?_⟩
  · rw [hexec, detectResponse_empty hlen]
    rfl
  · rw [hexec, detectResponse_known hlen htag]
    rfl
  · rw [hexec, detectResponse_unknown hlen htag]
    rfl

end Sys2Proof.Machine
end

section
/-! PROOFS. The manufacturer envelope of 42_format5.md section 3: R210's wrap, R213's strip, and the strip of a wrap. -/

namespace Sys2Proof.Machine

theorem payload_length (q : Request) (a : Nat) : (payload q a).length = 24 := by
  simp [payload]

/-- Byte `k` of the payload is input byte `a + k`. -/
theorem payload_getD (q : Request) (a : Nat) {k : Nat} (hk : k < 24) : (payload q a).getD k 0#8 = q.byte (a + k) := by
  simp [payload, hk]

theorem envWrapResponse_bytes {cfg : Config} {q : Request} (hlen : q.inLen.toNat = 24) :
    envWrapResponse cfg q = bytesResponse 0 ([cfg.envPrefix0, cfg.envPrefix1] ++ payload q 0) :=
  if_neg (not_not.mpr hlen)

theorem envStripResponse_bytes {q : Request} (hlen : q.inLen.toNat = 26) :
    envStripResponse q = bytesResponse 0 (payload q 2) :=
  if_neg (not_not.mpr hlen)

/-- Settles O40: after the two prefix bytes, output byte `2 + k` is byte `k` of the payload. -/
theorem envWrapPrependsThePrefix : Obligations.EnvWrapPrependsThePrefix := by
  refine ⟨decode_encode .envWrap, fun s q hq => ?_⟩
  have hexec : exec .envWrap s = .next (s.complete (envWrapResponse s.cfg q)) := exec_some .envWrap hq
  refine ⟨fun hlen => ?_, fun hlen => ?_⟩
  · rw [hexec, envWrapResponse, if_pos hlen]
    rfl
  · rw [envWrapResponse_bytes hlen] at hexec
    refine ⟨_, hexec, bytesResponse_isFrame 0 (by simp [payload_length]) (by decide),
      Memory.read_ofBytes _ 0, Memory.read_ofBytes _ 1, fun k hk => ?_⟩
    calc (Memory.ofBytes ([s.cfg.envPrefix0, s.cfg.envPrefix1] ++ payload q 0)).read (2 + k)
      _ = (Memory.ofBytes (payload q 0)).read k := read_ofBytes_append_right [_, _] _ k
      _ = q.byte k := by rw [Memory.read_ofBytes, payload_getD q 0 hk, Nat.zero_add]

/-- Settles O41: output byte `k` is byte `k` of the payload, which starts at input byte 2. -/
theorem envStripRemovesThePrefix : Obligations.EnvStripRemovesThePrefix := by
  refine ⟨decode_encode .envStrip, fun s q hq => ?_⟩
  have hexec : exec .envStrip s = .next (s.complete (envStripResponse q)) := exec_some .envStrip hq
  refine ⟨fun hlen => ?_, fun hlen => ?_⟩
  · rw [hexec, envStripResponse, if_pos hlen]
    rfl
  · rw [envStripResponse_bytes hlen] at hexec
    exact ⟨_, hexec, bytesResponse_isFrame 0 (payload_length q 2) (by decide), fun k hk =>
      (Memory.read_ofBytes _ k).trans (payload_getD q 2 hk)⟩

/-- Settles O47: the wrap puts input byte `k` at `2 + k`, within its 26 bytes, and the strip gives byte `2 + k` back. -/
theorem stripUndoesWrap : Obligations.StripUndoesWrap := by
  intro s t s' q q' hq hlen hwrap hq' hlen' hbuf'
  obtain ⟨w, hexec, ⟨-, -, hwlen, -⟩, -, -, hwrapped⟩ := (envWrapPrependsThePrefix.2 s q hq).2 hlen
  obtain rfl : s.complete w = t := Host.Outcome.next.inj (hexec.symm.trans hwrap)
  have hlen26 : q'.inLen.toNat = 26 := hlen' ▸ hwlen
  obtain ⟨r, hstrip, hframe, hstripped⟩ := (envStripRemovesThePrefix.2 s' q' hq').2 hlen26
  refine ⟨r, hstrip, hframe, fun k hk => ?_⟩
  calc r.outBuf.read k
    _ = q'.byte (2 + k) := hstripped k hk
    _ = w.outBuf.read (2 + k) := congrArg (·.read (2 + k)) hbuf'
    _ = q.byte k := hwrapped k hk

end Sys2Proof.Machine
end

section
/-! PROOFS. The Format-5 codec of 42_format5.md sections 1 and 2: the reading of a decoded frame and the bytes of an encoded
one, field by field. -/

namespace Sys2Proof.Machine

/-! ### Decoding -/

/-- The three outcomes of a DECODE command (R310). -/
theorem exec_decode {i : Instr} {tag : Byte} {len : Nat} {slots : Memory → Slot → Option Int} {s : State} {q : Request}
    (hq : s.snapshot = some q) (hr : respond s.cfg i q = decodeResponse tag len slots q) :
    (q.inLen.toNat ≠ len → exec i s = .next (s.complete (errorResponse .invalidLength))) ∧
    (q.inLen.toNat = len → q.byte 0 ≠ tag → exec i s = .next (s.complete (errorResponse .wrongFormatTag))) ∧
    (q.inLen.toNat = len → q.byte 0 = tag → exec i s = .next (s.complete (readingResponse tag (slots q.inBuf)))) := by
  rw [exec_some i hq, hr, decodeResponse]
  refine ⟨fun hlen => ?_, fun hlen htag => ?_, fun hlen htag => ?_⟩
  · rw [if_pos hlen]
  · rw [if_neg (not_not.mpr hlen), if_pos htag]
  · rw [if_neg (not_not.mpr hlen), if_neg (not_not.mpr htag)]

theorem readingResponse_isReading (tag : Byte) (slots : Slot → Option ℤ) : (readingResponse tag slots).IsReading tag :=
  ⟨rfl, rfl, rfl, rfl, fun _ => rfl⟩

/-- The value of every raw value the field can hold fits a register (R46). -/
theorem Field.valueOf_fits {f : Field} (hf : f.Regular) {raw : ℤ} (h : f.lo ≤ raw ∧ raw ≤ f.hi) :
    -(2 ^ 63) ≤ f.valueOf raw ∧ f.valueOf raw < 2 ^ 63 := by
  have hmono : ∀ {a b : ℤ}, a ≤ b → f.valueOf a ≤ f.valueOf b := fun hab =>
    add_le_add_left (mul_le_mul_of_nonneg_right hab hf.scale_pos.le) _
  exact ⟨hf.value_fits.1.trans (hmono h.1), (hmono h.2).trans_lt hf.value_fits.2⟩

/-- The slot of a linear row with a sentinel holds `v` of the raw value that was read, where `v` is the row's value in
physical units (R134, R137). -/
theorem readingResponse_hasSlot_linear {f : Field} {m : Memory} {raw snt : ℤ} {v : ℚ → ℚ} {tag : Byte}
    {slots : Slot → Option ℤ} (hf : f ∈ linearFields) (hk : slots f.slot = f.decode m) (hraw : f.raw m = raw)
    (hs : f.sentinel = some snt) (hv : ∀ x : ℚ, x * f.scale + f.offset = v x * f.slot.unit) :
    (readingResponse tag slots).HasSlot f.slot (unlessSentinel raw snt v) := by
  have hreg := regular_of_mem_linearFields hf
  refine readingResponse_hasSlot_field raw hk hraw hs (Field.valueOf_fits hreg (hraw ▸ Field.raw_fits hreg m)) ?_
  rw [← hv, Field.valueOf]
  push_cast
  rfl

/-- Battery is the word shifted right by five bits (R133). -/
theorem f5BAT_raw_shift (m : Memory) : f5BAT.raw m = (memRead m 13 2 >>> 5 : ℕ) := by
  rw [f5BAT_raw, Nat.shiftRight_eq_div_pow]

/-- Tx power is the word masked to its low five bits (R133). -/
theorem f5TX_raw_mask (m : Memory) : f5TX.raw m = (memRead m 13 2 &&& 0x1F : ℕ) := by
  rw [f5TX_raw, Nat.and_two_pow_sub_one_eq_mod _ 5]

/-- The movement counter is byte 15 (R110). -/
theorem f5MOV_raw (m : Memory) : f5MOV.raw m = (m.read 15).toNat := by
  rw [← memRead_one]
  exact Field.raw_unsigned m

/-- Settles O31: each of the eleven rows reports its raw value's physical value, and slot 11 is foreign. -/
theorem decodeF5ReportsEveryField : Obligations.DecodeF5ReportsEveryField := by
  refine ⟨decode_encode .decodeF5, fun s q hq => ?_⟩
  obtain ⟨hlength, htag, hreading⟩ := exec_decode (tag := 0x05#8) (len := 24) (slots := slotsF5) (i := .decodeF5) hq rfl
  refine ⟨hlength, htag, fun hlen ht => ⟨_, hreading hlen ht, readingResponse_isReading _ _,
    readingResponse_hasSlot_linear (f := f5T) (by decide) rfl (Field.raw_signed16 _) rfl ?_,
    readingResponse_hasSlot_linear (f := f5H) (by decide) rfl (Field.raw_unsigned _) rfl ?_,
    readingResponse_hasSlot_linear (f := f5P) (by decide) rfl (Field.raw_unsigned _) rfl ?_,
    readingResponse_hasSlot_linear (f := f5AX) (by decide) rfl (Field.raw_signed16 _) rfl ?_,
    readingResponse_hasSlot_linear (f := f5AY) (by decide) rfl (Field.raw_signed16 _) rfl ?_,
    readingResponse_hasSlot_linear (f := f5AZ) (by decide) rfl (Field.raw_signed16 _) rfl ?_,
    readingResponse_hasSlot_linear (f := f5BAT) (by decide) rfl (f5BAT_raw_shift _) rfl ?_,
    readingResponse_hasSlot_linear (f := f5TX) (by decide) rfl (f5TX_raw_mask _) rfl ?_,
    readingResponse_hasSlot_linear (f := f5MOV) (by decide) rfl (f5MOV_raw _) rfl ?_,
    readingResponse_hasSlot_linear (f := f5SEQ) (by decide) rfl (Field.raw_unsigned _) rfl ?_,
    readingResponse_hasSlot_linear (f := f5ID) (by decide) rfl (Field.raw_unsigned _) rfl ?_,
    readingResponse_hasSlot (v := none) trivial⟩⟩
  all_goals
    intro x
    simp only [f5T, f5H, f5P, f5AX, f5AY, f5AZ, f5BAT, f5TX, f5MOV, f5SEQ, f5ID, Field.signed16, Field.unsigned, Slot.unit,
      Slot.num, Nat.reduceLT, ↓reduceIte, micro]
    push_cast
    ring

/-! ### Encoding -/

/-- The bytes of a raw value in its two's complement form (R11, R138). -/
def rawBytes (n : Nat) (x : ℤ) : List Byte := beBytes n (x % 2 ^ (8 * n)).toNat

section
variable {f : Field} (hf : f ∈ linearFields) {snt : ℤ} (hs : f.sentinel = some snt) {g : ℚ → ℤ}
  (hg : ∀ x : ℚ, g x = trunc ((x * f.slot.unit - f.offset) / f.scale)) (q : Request)
include hf hs hg

/-- What an encode writes for a row that fills its bytes, in physical units (R138, R141): `g` is the row's quantizer. -/
theorem Field.encode_rawOr (hm : f.masked = false) :
    f.encode q = if f.lo ≤ q.rawOr f.slot snt g ∧ q.rawOr f.slot snt g ≤ f.hi
      then some (rawBytes f.bytes (q.rawOr f.slot snt g)) else none := by
  have hreg := regular_of_mem_linearFields hf
  exact Field.encode_eq (Field.encodeRaw_eq q hm hs (hreg.sentinel_fits snt hs)
    (Field.quantize_eq hreg.scale_pos hg f.slot.unit_ne_zero))

/-- What an encode writes for a part of the power-info word, in physical units (R142). -/
theorem Field.encodeRaw_rawOr (hm : f.masked = true) : f.encodeRaw q = some (q.rawOr f.slot snt g % 2 ^ f.bits) := by
  have hreg := regular_of_mem_linearFields hf
  obtain ⟨hlo, hhi⟩ := Field.lo_hi_of_masked hreg hm
  obtain ⟨hnonneg, hle⟩ := hreg.sentinel_fits snt hs
  exact Field.encodeRaw_masked q hm hs (Int.emod_eq_of_lt (hlo ▸ hnonneg) (by omega))
    (Field.quantize_eq hreg.scale_pos hg f.slot.unit_ne_zero)

end

/-- A row whose raw value is its register value: scale 1, offset 0 (R139). -/
theorem Field.quantize_unsigned_one {slot : Slot} {base bytes : Nat} {snt : ℤ} (v : ℤ) :
    (Field.unsigned slot base bytes 1 0 snt).quantize v = v := by
  simp [Field.quantize, Field.unsigned]

/-- The raw value an encode of Format 5 writes for a slot, before any range check or mask (R138, R200). -/
def rawF5 (q : Request) : Slot → ℤ
  | .temperature => q.rawOr .temperature (-32768) fun v => trunc (200 * v)
  | .humidity => q.rawOr .humidity 65535 fun v => trunc (400 * v)
  | .pressure => q.rawOr .pressure 65535 fun v => trunc (v - 50000)
  | .accelX => q.rawOr .accelX (-32768) fun v => trunc (1000 * v)
  | .accelY => q.rawOr .accelY (-32768) fun v => trunc (1000 * v)
  | .accelZ => q.rawOr .accelZ (-32768) fun v => trunc (1000 * v)
  | .batteryVoltage => q.rawOr .batteryVoltage 0x7FF fun v => trunc (v - 1600)
  | .txPower => q.rawOr .txPower 0x1F fun v => trunc ((v + 40) / 2)
  | .movementCounter => (q.slotIn .movementCounter).getD 255
  | .measurementSequence => (q.slotIn .measurementSequence).getD 65535
  | .deviceId => (q.slotIn .deviceId).getD (2 ^ 48 - 1)
  | .coarseId => 0

/-- The rows of Format 5 that fill their bytes: all but the two parts of the power-info word. -/
def wholeRowsF5 : List Field := [f5T, f5H, f5P, f5AX, f5AY, f5AZ, f5MOV, f5SEQ, f5ID]

/-- `fitsF5` is the range check of each row that fills its bytes. -/
theorem fitsF5_iff (q : Request) :
    fitsF5 q ↔ ∀ f ∈ wholeRowsF5, f.lo ≤ rawF5 q f.slot ∧ rawF5 q f.slot ≤ f.hi := by
  simp only [wholeRowsF5, List.forall_mem_cons, List.not_mem_nil, false_imp_iff, implies_true, and_true]
  exact Iff.rfl

/-- A row that fills its bytes is encoded exactly when its raw value is in range (R138, R141). -/
theorem encode_wholeRowsF5 (q : Request) : ∀ f ∈ wholeRowsF5,
    f.encode q = if f.lo ≤ rawF5 q f.slot ∧ rawF5 q f.slot ≤ f.hi then some (rawBytes f.bytes (rawF5 q f.slot))
      else none := by
  simp only [wholeRowsF5, List.forall_mem_cons, List.not_mem_nil, false_imp_iff, implies_true, and_true]
  refine ⟨Field.encode_rawOr (by decide) rfl ?_ q rfl, Field.encode_rawOr (by decide) rfl ?_ q rfl,
    Field.encode_rawOr (by decide) rfl ?_ q rfl, Field.encode_rawOr (by decide) rfl ?_ q rfl,
    Field.encode_rawOr (by decide) rfl ?_ q rfl, Field.encode_rawOr (by decide) rfl ?_ q rfl,
    Field.encode_eq (Field.encodeRaw_plain rfl rfl (by decide) Field.quantize_unsigned_one),
    Field.encode_eq (Field.encodeRaw_plain rfl rfl (by decide) Field.quantize_unsigned_one),
    Field.encode_eq (Field.encodeRaw_plain rfl rfl (by decide) Field.quantize_unsigned_one)⟩
  all_goals
    intro x
    simp only [f5T, f5H, f5P, f5AX, f5AY, f5AZ, Field.signed16, Field.unsigned, Slot.unit, Slot.num, Nat.reduceLT,
      ↓reduceIte, micro]
    push_cast
    ring_nf

/-- The 24 bytes of the frame of a reading that fits, part by part (R110, R200). -/
def partsF5 (q : Request) : List (List Byte) :=
  [[0x05#8], rawBytes 2 (rawF5 q .temperature), rawBytes 2 (rawF5 q .humidity), rawBytes 2 (rawF5 q .pressure),
    rawBytes 2 (rawF5 q .accelX), rawBytes 2 (rawF5 q .accelY), rawBytes 2 (rawF5 q .accelZ),
    rawBytes 2 (rawF5 q .batteryVoltage % 2048 * 32 + rawF5 q .txPower % 32), rawBytes 1 (rawF5 q .movementCounter),
    rawBytes 2 (rawF5 q .measurementSequence), rawBytes 6 (rawF5 q .deviceId)]

/-- The power-info word is never refused: each part is masked to its bits (R142, R202). -/
theorem powerPart_rawF5 (q : Request) :
    powerPart q = some (rawBytes 2 (rawF5 q .batteryVoltage % 2048 * 32 + rawF5 q .txPower % 32)) := by
  refine powerPart_spec (Field.encodeRaw_rawOr (by decide) rfl ?_ q rfl) (Field.encodeRaw_rawOr (by decide) rfl ?_ q rfl)
  all_goals
    intro x
    simp only [f5BAT, f5TX, Slot.unit, Slot.num, Nat.reduceLT, ↓reduceIte, micro]
    push_cast
    ring_nf

/-- A reading that fits is encoded part by part. -/
theorem frameF5_of_fits {q : Request} (h : fitsF5 q) : frameF5 q = some (partsF5 q).flatten := by
  have part : ∀ f ∈ wholeRowsF5, f.encode q = some (rawBytes f.bytes (rawF5 q f.slot)) := fun f hf =>
    (encode_wholeRowsF5 q f hf).trans (if_pos ((fitsF5_iff q).mp h f hf))
  rw [frameF5, part f5T (by decide), part f5H (by decide), part f5P (by decide), part f5AX (by decide),
    part f5AY (by decide), part f5AZ (by decide), powerPart_rawF5, part f5MOV (by decide), part f5SEQ (by decide),
    part f5ID (by decide)]
  rfl

/-- A row out of range refuses the frame: a frame is encoded only when each of its parts is. -/
theorem frameF5_of_not_fits {q : Request} (h : ¬ fitsF5 q) : frameF5 q = none := by
  refine Option.not_isSome_iff_eq_none.mp fun hframe => h ((fitsF5_iff q).mpr fun f hf => ?_)
  have hmem : ∀ f ∈ wholeRowsF5, (f.encode q).isSome = true := by
    rw [frameF5, joinParts_isSome] at hframe
    simp only [wholeRowsF5, List.forall_mem_cons] at hframe ⊢
    tauto
  by_contra hrange
  simpa [encode_wholeRowsF5 q f hf, hrange] using hmem f hf

/-- MemRead of a part of written bytes gives the raw value modulo the part's size. -/
theorem memRead_part {parts : List (List Byte)} (i : Nat) {a n : Nat} {x : ℤ} (hi : parts[i]? = some (rawBytes n x))
    (ha : (parts.take i).flatten.length = a) :
    (memRead (Memory.ofBytes parts.flatten) a n : ℤ) = x % 2 ^ (8 * n) := by
  subst ha
  obtain ⟨hlt, hpart⟩ := List.getElem?_eq_some_iff.mp hi
  have hsplit : parts.flatten = (parts.take i).flatten ++ (rawBytes n x ++ (parts.drop (i + 1)).flatten) := by
    rw [← hpart, ← List.flatten_cons, List.getElem_cons_drop, ← List.flatten_append, List.take_append_drop]
  rw [hsplit, memRead_ofBytes_append_right _ _ le_rfl, Nat.sub_self]
  exact memRead_ofBytes_field _

/-- A raw value in the part's range is read back as it is. -/
theorem memRead_part_of_within {parts : List (List Byte)} (i : Nat) {a n : Nat} {x : ℤ}
    (hx : within 0 (2 ^ (8 * n) - 1) x) (hi : parts[i]? = some (rawBytes n x))
    (ha : (parts.take i).flatten.length = a) : (memRead (Memory.ofBytes parts.flatten) a n : ℤ) = x :=
  (memRead_part i hi ha).trans (Int.emod_eq_of_lt hx.1 (Int.lt_of_le_sub_one hx.2))

/-- The power-info word fits its two bytes (R142). -/
theorem powerWord_within (b t : ℤ) : within 0 65535 (b % 2048 * 32 + t % 32) := by
  constructor <;> omega

/-- Settles O36: a reading that fits is written part by part, and MemRead of a part gives back its raw value. -/
theorem encodeF5WritesTheFrame : Obligations.EncodeF5WritesTheFrame := by
  refine ⟨decode_encode .encodeF5, fun s q hq => ?_⟩
  obtain ⟨hnil, hdomain, hframe⟩ := exec_encode (tag := 0x05#8) (frame := frameF5) (i := .encodeF5) hq rfl
  refine ⟨hnil, fun hv hfits => hdomain hv (frameF5_of_not_fits hfits), fun hv hfits => ?_⟩
  have hbytes := hframe _ hv (frameF5_of_fits hfits)
  obtain ⟨-, hH, hP, -, -, -, hMOV, hSEQ, hID⟩ := hfits
  have hmov := memRead_part_of_within (parts := partsF5 q) 8 hMOV rfl rfl
  rw [memRead_one] at hmov
  exact ⟨_, hbytes, bytesResponse_isFrame _ rfl (by decide), rfl,
    memRead_part 1 rfl rfl, memRead_part_of_within 2 hH rfl rfl, memRead_part_of_within 3 hP rfl rfl,
    memRead_part 4 rfl rfl, memRead_part 5 rfl rfl, memRead_part 6 rfl rfl,
    memRead_part_of_within 7 (powerWord_within _ _) rfl rfl, hmov, memRead_part_of_within 9 hSEQ rfl rfl,
    memRead_part_of_within 10 hID rfl rfl⟩

end Sys2Proof.Machine
end

section
/-! PROOFS. The Format-3 codec of 43_format3.md: the reading of a decoded frame, whose accelerations are never absent, and the
bytes of an encoded one, whose temperature is a sign and a magnitude. -/

namespace Sys2Proof.Machine

/-! ### Decoding -/

theorem readingResponse_hasSlot_absent {tag : Byte} {slots : Slot → Option ℤ} {k : Slot} (hk : slots k = none) :
    (readingResponse tag slots).HasSlot k none :=
  readingResponse_hasSlot (by rw [hk]; trivial)

/-- The slot of a linear row without a sentinel is present for every raw value, and holds the row's value in physical units
(R135, R137). -/
theorem readingResponse_hasSlot_present {f : Field} {m : Memory} {raw : ℤ} {v : ℚ} {tag : Byte} {slots : Slot → Option ℤ}
    (hf : f ∈ linearFields) (hk : slots f.slot = f.decode m) (hraw : f.raw m = raw) (hs : f.sentinel = none)
    (hv : (raw : ℚ) * f.scale + f.offset = v * f.slot.unit) : (readingResponse tag slots).HasSlot f.slot (some v) := by
  have hreg := regular_of_mem_linearFields hf
  have hpresent : slots f.slot = some (f.valueOf raw) := by
    rw [hk, Field.decode_of_raw hraw, hs, if_neg (Option.some_ne_none raw).symm]
  refine readingResponse_hasSlot ?_
  rw [hpresent]
  refine ⟨Field.valueOf_fits hreg (hraw ▸ Field.raw_fits hreg m), ?_⟩
  rw [← hv, Field.valueOf]
  push_cast
  rfl

/-- Humidity is byte 1 (R111). -/
theorem f3H_raw (m : Memory) : f3H.raw m = (m.read 1).toNat := by
  rw [← memRead_one]
  exact Field.raw_unsigned m

/-- Settles O32: the four rows with a sentinel report their raw value's physical value or nothing, the three accelerations
always report, and slots 7 to 11 are foreign. -/
theorem decodeF3ReportsEveryField : Obligations.DecodeF3ReportsEveryField := by
  refine ⟨decode_encode .decodeF3, fun s q hq => ?_⟩
  obtain ⟨hlength, htag, hreading⟩ := exec_decode (tag := 0x03#8) (len := 14) (slots := slotsF3) (i := .decodeF3) hq rfl
  have hforeign : ∀ k ∈ [Slot.txPower, .movementCounter, .measurementSequence, .deviceId, .coarseId],
      k ∉ [Slot.temperature, .humidity, .pressure, .accelX, .accelY, .accelZ, .batteryVoltage] := by decide
  refine ⟨hlength, htag, fun hlen ht => ⟨_, hreading hlen ht, readingResponse_isReading _ _,
    readingResponse_hasSlot_linear (f := f3H) (by decide) rfl (f3H_raw _) rfl fun x => ?_,
    readingResponse_hasSlot_smag rfl rfl,
    readingResponse_hasSlot_linear (f := f3P) (by decide) rfl (Field.raw_unsigned _) rfl fun x => ?_,
    readingResponse_hasSlot_present (f := f3AX) (by decide) rfl (Field.raw_signed16 _) rfl ?_,
    readingResponse_hasSlot_present (f := f3AY) (by decide) rfl (Field.raw_signed16 _) rfl ?_,
    readingResponse_hasSlot_present (f := f3AZ) (by decide) rfl (Field.raw_signed16 _) rfl ?_,
    readingResponse_hasSlot_linear (f := f3BAT) (by decide) rfl (Field.raw_unsigned _) rfl fun x => ?_,
    fun k hk => readingResponse_hasSlot_absent (slotsF3_foreign (hforeign k hk) _)⟩⟩
  all_goals
    simp only [f3H, f3P, f3AX, f3AY, f3AZ, f3BAT, Field.signed16, Field.unsigned, Slot.unit, Slot.num, Nat.reduceLT,
      ↓reduceIte, micro]
    push_cast
    ring

/-! ### Encoding -/

/-- What an encode writes for a row that fills its bytes, with or without a sentinel: a row without one refuses an absent
slot (R138, R141, R242). `g` is the row's quantizer, and `snt` the sentinel of a row that has one. -/
theorem Field.encode_rawOr_required {f : Field} (hf : f ∈ linearFields) (hm : f.masked = false) {snt : ℤ}
    (hs : f.sentinel.getD snt = snt) {g : ℚ → ℤ} (hg : ∀ x : ℚ, g x = trunc ((x * f.slot.unit - f.offset) / f.scale))
    (q : Request) :
    f.encode q =
      if (f.sentinel = none → (q.slotIn f.slot).isSome = true) ∧
        f.lo ≤ q.rawOr f.slot snt g ∧ q.rawOr f.slot snt g ≤ f.hi
      then some (rawBytes f.bytes (q.rawOr f.slot snt g)) else none := by
  cases hsnt : f.sentinel with
  | some x =>
    obtain rfl : x = snt := by simpa [hsnt] using hs
    simpa using Field.encode_rawOr hf hsnt hg q hm
  | none =>
    cases hk : q.slotIn f.slot with
    | none => simp [Field.encode, Field.encodeRaw, hk, hsnt]
    | some v =>
      have hraw : q.rawOr f.slot snt g = f.quantize v := by
        rw [Field.quantize_eq (regular_of_mem_linearFields hf).scale_pos hg f.slot.unit_ne_zero]
        simp [Request.rawOr, Request.valueIn, hk]
      have hrow : f.encodeRaw q = if f.lo ≤ f.quantize v ∧ f.quantize v ≤ f.hi then some (f.quantize v) else none := by
        simp [Field.encodeRaw, hk, hm]
      simpa [hraw, rawBytes] using Field.encode_eq hrow

/-- A temperature that fits is two bytes of the frame (R145). -/
theorem smagFracPart_of_fits (src : SignSource) {q : Request}
    (h : ∀ v, q.valueIn .temperature = some v → wholeSpec v ≤ 127) :
    ∃ b2 b3 : Byte, smagPart (smagEncodeFrac src) q = some [b2, b3] ∧ temperatureBytes q (smagFracSpec src) b2 b3 := by
  have hpart := smagPart_spec (ok := fun v => wholeSpec v ≤ 127) q (smagEncodeFrac_spec src)
  cases hbs : smagPart (smagEncodeFrac src) q with
  | none =>
    rw [hbs] at hpart
    exact absurd h hpart
  | some bs =>
    rw [hbs] at hpart
    obtain ⟨-, b2, b3, rfl, hbytes⟩ := hpart
    exact ⟨b2, b3, rfl, hbytes⟩

/-- A temperature that is encoded fits (R145). -/
theorem fits_of_smagFracPart_isSome {src : SignSource} {q : Request}
    (h : (smagPart (smagEncodeFrac src) q).isSome = true) :
    ∀ v, q.valueIn .temperature = some v → wholeSpec v ≤ 127 := by
  have hpart := smagPart_spec (ok := fun v => wholeSpec v ≤ 127) q (smagEncodeFrac_spec src)
  obtain ⟨bs, hbs⟩ := Option.isSome_iff_exists.mp h
  rw [hbs] at hpart
  exact hpart.1

/-- The raw value an encode of Format 3 writes for a slot, before any range check (R138, R240). -/
def rawF3 (q : Request) : Slot → ℤ
  | .humidity => q.rawOr .humidity 0 fun v => trunc (2 * v)
  | .pressure => q.rawOr .pressure 0 fun v => trunc (v - 50000)
  | .accelX => q.rawOr .accelX 0 fun v => trunc (1000 * v)
  | .accelY => q.rawOr .accelY 0 fun v => trunc (1000 * v)
  | .accelZ => q.rawOr .accelZ 0 fun v => trunc (1000 * v)
  | .batteryVoltage => q.rawOr .batteryVoltage 0 fun v => trunc v
  | _ => 0

/-- The linear rows of Format 3: all but the temperature. -/
def linearRowsF3 : List Field := [f3H, f3P, f3AX, f3AY, f3AZ, f3BAT]

/-- A row of Format 3 is not refused: its slot is present unless the row has a sentinel, and its raw value is in range
(R141, R242). -/
abbrev rowFitsF3 (q : Request) (f : Field) : Prop :=
  (f.sentinel = none → (q.slotIn f.slot).isSome = true) ∧ f.lo ≤ rawF3 q f.slot ∧ rawF3 q f.slot ≤ f.hi

/-- A slot is present with a value that fits when it is present and its raw value fits. -/
theorem exists_valueIn_within_iff (q : Request) (k : Slot) (snt lo hi : ℤ) (g : ℚ → ℤ) :
    (∃ v, q.valueIn k = some v ∧ within lo hi (g v)) ↔
      (q.slotIn k).isSome = true ∧ within lo hi (q.rawOr k snt g) := by
  unfold Request.rawOr Request.valueIn
  cases q.slotIn k <;> simp

/-- `fitsF3` is the temperature's range check and the check of each linear row. -/
theorem fitsF3_iff (q : Request) :
    fitsF3 q ↔ (∀ v, q.valueIn .temperature = some v → wholeSpec v ≤ 127) ∧ ∀ f ∈ linearRowsF3, rowFitsF3 q f := by
  have hrow : ∀ (f : Field) (x : ℤ), f.sentinel = some x →
      (rowFitsF3 q f ↔ within f.lo f.hi (rawF3 q f.slot)) := fun f x hs => by simp [rowFitsF3, within, hs]
  have haccel : ∀ f : Field, f.sentinel = none →
      (rowFitsF3 q f ↔ (q.slotIn f.slot).isSome = true ∧ within f.lo f.hi (rawF3 q f.slot)) := fun f hs => by
    simp [rowFitsF3, within, hs]
  simp only [linearRowsF3, List.forall_mem_cons, List.not_mem_nil, false_imp_iff, implies_true, and_true,
    hrow f3H 0 rfl, hrow f3P 0 rfl, haccel f3AX rfl, haccel f3AY rfl, haccel f3AZ rfl, hrow f3BAT 0 rfl, fitsF3,
    fitsHumidityPressure, exists_valueIn_within_iff q _ 0]
  exact ⟨fun ⟨⟨hH, hP⟩, hT, hrest⟩ => ⟨hT, hH, hP, hrest⟩, fun ⟨hT, hH, hP, hrest⟩ => ⟨⟨hH, hP⟩, hT, hrest⟩⟩

/-- A linear row is encoded exactly when it fits. -/
theorem encode_linearRowsF3 (q : Request) : ∀ f ∈ linearRowsF3,
    f.encode q = if rowFitsF3 q f then some (rawBytes f.bytes (rawF3 q f.slot)) else none := by
  simp only [linearRowsF3, List.forall_mem_cons, List.not_mem_nil, false_imp_iff, implies_true, and_true]
  refine ⟨Field.encode_rawOr_required (by decide) rfl rfl ?_ q, Field.encode_rawOr_required (by decide) rfl rfl ?_ q,
    Field.encode_rawOr_required (by decide) rfl rfl ?_ q, Field.encode_rawOr_required (by decide) rfl rfl ?_ q,
    Field.encode_rawOr_required (by decide) rfl rfl ?_ q, Field.encode_rawOr_required (by decide) rfl rfl ?_ q⟩
  all_goals
    intro x
    simp only [f3H, f3P, f3AX, f3AY, f3AZ, f3BAT, Field.signed16, Field.unsigned, Slot.unit, Slot.num, Nat.reduceLT,
      ↓reduceIte, micro]
    push_cast
    ring_nf

/-- The 14 bytes of the frame of a reading that fits, part by part, with `b2` and `b3` its temperature (R111, R240). -/
def partsF3 (q : Request) (b2 b3 : Byte) : List (List Byte) :=
  [[0x03#8], rawBytes 1 (rawF3 q .humidity), [b2, b3], rawBytes 2 (rawF3 q .pressure), rawBytes 2 (rawF3 q .accelX),
    rawBytes 2 (rawF3 q .accelY), rawBytes 2 (rawF3 q .accelZ), rawBytes 2 (rawF3 q .batteryVoltage)]

/-- A reading that fits is encoded part by part. -/
theorem frameF3_of_fits {q : Request} (cfg : Config) (h : fitsF3 q) :
    ∃ b2 b3, frameF3 cfg q = some (partsF3 q b2 b3).flatten ∧
      temperatureBytes q (smagFracSpec cfg.signSource) b2 b3 := by
  obtain ⟨htemp, hrows⟩ := (fitsF3_iff q).mp h
  obtain ⟨b2, b3, hpart, hbytes⟩ := smagFracPart_of_fits cfg.signSource htemp
  have part : ∀ f ∈ linearRowsF3, f.encode q = some (rawBytes f.bytes (rawF3 q f.slot)) := fun f hf =>
    (encode_linearRowsF3 q f hf).trans (if_pos (hrows f hf))
  refine ⟨b2, b3, ?_, hbytes⟩
  rw [frameF3, hpart, part f3H (by decide), part f3P (by decide), part f3AX (by decide), part f3AY (by decide),
    part f3AZ (by decide), part f3BAT (by decide)]
  rfl

/-- A part that does not fit refuses the frame: a frame is encoded only when each of its parts is. -/
theorem frameF3_of_not_fits {q : Request} (cfg : Config) (h : ¬ fitsF3 q) : frameF3 cfg q = none := by
  refine Option.not_isSome_iff_eq_none.mp fun hframe => h ((fitsF3_iff q).mpr ?_)
  rw [frameF3, joinParts_isSome] at hframe
  refine ⟨fits_of_smagFracPart_isSome (src := cfg.signSource) (hframe _ (by simp)), fun f hf => ?_⟩
  have hmem : ∀ f ∈ linearRowsF3, (f.encode q).isSome = true := by
    simp only [linearRowsF3, List.forall_mem_cons] at hframe ⊢
    tauto
  by_contra hfits
  simpa only [encode_linearRowsF3 q f hf, if_neg hfits, Option.isSome_none, Bool.false_eq_true] using hmem f hf

/-- Settles O37: a reading that fits is written part by part, MemRead of a linear part gives back its raw value, and the two
temperature bytes are the ones R145 gives. -/
theorem encodeF3WritesTheFrame : Obligations.EncodeF3WritesTheFrame := by
  refine ⟨decode_encode .encodeF3, fun s q hq => ?_⟩
  obtain ⟨hnil, hdomain, hframe⟩ := exec_encode (tag := 0x03#8) (frame := frameF3 s.cfg) (i := .encodeF3) hq rfl
  refine ⟨hnil, fun hv hfits => hdomain hv (frameF3_of_not_fits _ hfits), fun hv hfits => ?_⟩
  obtain ⟨b2, b3, hparts, htemp⟩ := frameF3_of_fits s.cfg hfits
  obtain ⟨⟨hH, hP⟩, -, -, -, -, hBAT⟩ := hfits
  have hhum := memRead_part_of_within (parts := partsF3 q b2 b3) 1 hH rfl rfl
  rw [memRead_one] at hhum
  have hb2 : (Memory.ofBytes (partsF3 q b2 b3).flatten).read 2 = b2 := Memory.read_ofBytes _ _
  have hb3 : (Memory.ofBytes (partsF3 q b2 b3).flatten).read 3 = b3 := Memory.read_ofBytes _ _
  exact ⟨_, hframe _ hv hparts, bytesResponse_isFrame _ rfl (by decide), rfl, hhum, hb2.symm ▸ hb3.symm ▸ htemp,
    memRead_part_of_within 3 hP rfl rfl, memRead_part 4 rfl rfl, memRead_part 5 rfl rfl, memRead_part 6 rfl rfl,
    memRead_part_of_within 7 hBAT rfl rfl⟩

end Sys2Proof.Machine
end

section
/-! PROOFS. The Format-2 and Format-4 codecs of 44_format2_4.md: the reading they share, the identifier of Format 4, and the
bytes of an encoded frame, whose temperature is in whole degrees. -/

namespace Sys2Proof.Machine

/-! ### Decoding -/

/-- The identifier of six raw bits, in the form F4_ID_FORM names (R262). -/
def coarseIdValue (form : F4IdForm) (x : ℚ) : ℚ :=
  match form with
  | .shifted => x
  | .inPlace => 4 * x

/-- The slot of the Format-4 identifier (R262): absent when the six upper bits of its byte are 0. -/
theorem readingResponse_hasSlot_coarseId {form : F4IdForm} {b tag : Byte} {slots : Slot → Option ℤ}
    (hk : slots .coarseId = coarseIdDecode form b) :
    (readingResponse tag slots).HasSlot .coarseId
      (unlessSentinel ((b.toNat >>> 2 : ℕ) : ℤ) 0 (coarseIdValue form)) := by
  apply readingResponse_hasSlot
  rw [hk]
  unfold coarseIdDecode unlessSentinel
  have hlt : b.toNat >>> 2 < 64 := by have := b.isLt; omega
  generalize b.toNat >>> 2 = raw at hlt
  have hunit : Slot.coarseId.unit = 1 := rfl
  by_cases hraw : raw = 0
  · simp [hraw]
  · rw [if_neg hraw, if_neg (by exact_mod_cast hraw), hunit]
    cases form with
    | shifted => exact ⟨by omega, by simp [coarseIdValue]⟩
    | inPlace =>
      simp only [Nat.shiftLeft_eq, coarseIdValue]
      refine ⟨by omega, ?_⟩
      push_cast
      ring

/-- The humidity, temperature and pressure Formats 2 and 4 share, and the slots neither has (R260, R263). -/
theorem readingResponse_hasSlot_f24 {cfg : Config} {m : Memory} {tag : Byte} {slots : Slot → Option ℤ}
    (h : ∀ k, k ≠ .coarseId → slots k = slotsF24 cfg m k) :
    (readingResponse tag slots).HasSlot .humidity (unlessSentinel (m.read 1).toNat 0 fun x => x / 2) ∧
    (readingResponse tag slots).HasSlot .temperature (smagDecodeSpec (m.read 2) (m.read 3) cfg.f24DecodeFraction) ∧
    (readingResponse tag slots).HasSlot .pressure (unlessSentinel (memRead m 4 2) 0 fun x => x + 50000) ∧
    ∀ k, k ∉ [Slot.temperature, .humidity, .pressure] → k ≠ .coarseId → (readingResponse tag slots).HasSlot k none := by
  refine ⟨readingResponse_hasSlot_linear (f := f24H) (by decide) (h _ (by decide)) (f3H_raw m) rfl fun x => ?_,
    readingResponse_hasSlot_smag rfl (h _ (by decide)),
    readingResponse_hasSlot_linear (f := f24P) (by decide) (h _ (by decide)) (Field.raw_unsigned m) rfl fun x => ?_,
    fun k hforeign hk => readingResponse_hasSlot_absent ((h k hk).trans (slotsF24_foreign hforeign m))⟩
  all_goals
    simp only [f24H, f24P, Field.unsigned, Slot.unit, Slot.num, Nat.reduceLT, ↓reduceIte, micro]
    push_cast
    ring

/-- DECODE.F2 and DECODE.F4 differ in the tag, the length and the identifier only (R260, R261). -/
theorem respond_decodeF2_or_F4 {i : Instr} {tag : Byte} {len : Nat}
    (hi : (i, tag, len) ∈ [(Instr.decodeF2, 0x02#8, 6), (.decodeF4, 0x04#8, 7)]) (cfg : Config) :
    ∃ slots, respond cfg i = decodeResponse tag len slots ∧
      (∀ m k, k ≠ Slot.coarseId → slots m k = slotsF24 cfg m k) ∧
      (i = .decodeF2 → ∀ m, slots m .coarseId = none) ∧
      (i = .decodeF4 → ∀ m, slots m .coarseId = coarseIdDecode cfg.f4IdForm (m.read 6)) := by
  simp only [List.mem_cons, Prod.mk.injEq, List.not_mem_nil, or_false] at hi
  obtain ⟨rfl, rfl, rfl⟩ | ⟨rfl, rfl, rfl⟩ := hi
  · exact ⟨slotsF24 cfg, rfl, fun _ _ _ => rfl, fun _ _ => rfl, nofun⟩
  · refine ⟨slotsF4 cfg, rfl, fun m k hk => ?_, nofun, fun _ _ => rfl⟩
    cases k with
    | coarseId => exact absurd rfl hk
    | _ => rfl

/-- Settles O33: both formats report the fields they share, Format 4 its identifier, and neither any other slot. -/
theorem decodeF2AndF4ReportEveryField : Obligations.DecodeF2AndF4ReportEveryField := by
  refine ⟨decode_encode .decodeF2, decode_encode .decodeF4, fun i tag len hi s q hq => ?_⟩
  obtain ⟨slots, hrespond, hshared, hid2, hid4⟩ := respond_decodeF2_or_F4 hi s.cfg
  obtain ⟨hlength, htag, hreading⟩ := exec_decode (slots := slots) hq (congrFun hrespond q)
  obtain ⟨hhum, htemp, hpres, hforeign⟩ := readingResponse_hasSlot_f24 (tag := tag) (hshared q.inBuf)
  have hother : ∀ k ∈ [Slot.accelX, .accelY, .accelZ, .batteryVoltage, .txPower, .movementCounter, .measurementSequence,
      .deviceId], k ∉ [Slot.temperature, .humidity, .pressure] ∧ k ≠ .coarseId := by decide
  exact ⟨hlength, htag, fun hlen ht => ⟨_, hreading hlen ht, readingResponse_isReading _ _, hhum, htemp, hpres,
    fun h2 => readingResponse_hasSlot_absent (hid2 h2 _), fun h4 => readingResponse_hasSlot_coarseId (hid4 h4 _),
    fun k hk => hforeign k (hother k hk).1 (hother k hk).2⟩⟩

/-! ### Encoding -/

theorem joinParts_map_some (parts : List (List Byte)) : joinParts (parts.map some) = some parts.flatten := by
  induction parts with
  | nil => rfl
  | cons bs parts ih => simp [ih]

/-- The humidity and pressure rows of Formats 2 and 4 are those of Format 3, and are encoded exactly when they are in range
(R138, R141). -/
theorem encode_rowsF24 (q : Request) : ∀ f ∈ [f24H, f24P],
    f.encode q = if f.lo ≤ rawF3 q f.slot ∧ rawF3 q f.slot ≤ f.hi then some (rawBytes f.bytes (rawF3 q f.slot))
      else none := by
  intro f hf
  have hrows : ∀ f ∈ [f24H, f24P], f ∈ linearRowsF3 ∧ f.sentinel ≠ none := by decide
  obtain ⟨hmem, hsentinel⟩ := hrows f hf
  simpa [rowFitsF3, hsentinel] using encode_linearRowsF3 q f hmem

/-- What a part's specification says, for a part that is encoded exactly when `fits` holds: its bytes then meet `bytes`. -/
theorem isSome_iff_and_of_partSpec {o : Option (List Byte)} {fits : Prop} {bytes : List Byte → Prop}
    (h : match o with
      | none => ¬ fits
      | some bs => fits ∧ bytes bs) :
    (o.isSome = true ↔ fits) ∧ ∀ bs, o = some bs → bytes bs := by
  cases o with
  | none => exact ⟨⟨nofun, fun hfits => absurd hfits h⟩, nofun⟩
  | some bs => exact ⟨⟨fun _ => h.1, fun _ => rfl⟩, fun _ hbs => Option.some.inj hbs ▸ h.2⟩

/-- The temperature is encoded exactly when its whole degrees are at most 127, as two bytes (R146, R272). -/
theorem smagWholePart_bytes (src : SignSource) (q : Request) :
    ((smagPart (smagEncodeWhole src) q).isSome = true ↔ ∀ v, q.valueIn .temperature = some v → ⌊|v|⌋ ≤ 127) ∧
    ∀ bs, smagPart (smagEncodeWhole src) q = some bs →
      ∃ b2 b3 : Byte, bs = [b2, b3] ∧ temperatureBytes q (smagWholeSpec src) b2 b3 :=
  isSome_iff_and_of_partSpec (smagPart_spec (ok := fun v => ⌊|v|⌋ ≤ 127) q (smagEncodeWhole_spec src))

/-- Byte 6 of an encoded Format-4 frame as a number (R262). -/
def coarseIdByte (form : F4IdForm) (q : Request) : ℤ :=
  match form with
  | .shifted => 4 * (q.slotIn .coarseId).getD 0
  | .inPlace => (q.slotIn .coarseId).getD 0 - (q.slotIn .coarseId).getD 0 % 4

/-- The identifier is encoded exactly when it is in range, as one byte (R262). -/
theorem coarseIdPart_bytes (form : F4IdForm) (q : Request) :
    ((coarseIdPart form q).isSome = true ↔
      ∀ v, q.slotIn .coarseId = some v → within 0 (match form with | .shifted => 63 | .inPlace => 255) v) ∧
    ∀ bs, coarseIdPart form q = some bs → ∃ b : Byte, bs = [b] ∧ (b.toNat : ℤ) = coarseIdByte form q :=
  isSome_iff_and_of_partSpec (coarseIdPart_spec form q)

/-- A reading fits Format 2 exactly when each of the shared parts is encoded (R272). -/
theorem fitsF2_iff (cfg : Config) (q : Request) : fitsF2 q ↔ ∀ o ∈ partsF24 cfg q, o.isSome = true := by
  simp only [partsF24, List.forall_mem_cons, List.not_mem_nil, false_imp_iff, implies_true, and_true,
    (smagWholePart_bytes cfg.signSource q).1, encode_rowsF24 q f24H (by decide), encode_rowsF24 q f24P (by decide),
    Option.isSome_ite]
  exact ⟨fun ⟨⟨hH, hP⟩, hT⟩ => ⟨hH, hT, hP⟩, fun ⟨hH, hT, hP⟩ => ⟨⟨hH, hP⟩, hT⟩⟩

/-- The bytes of the shared parts of a reading that fits, with `b2` and `b3` its temperature (R112, R113). -/
def bytesF24 (q : Request) (b2 b3 : Byte) : List (List Byte) :=
  [rawBytes 1 (rawF3 q .humidity), [b2, b3], rawBytes 2 (rawF3 q .pressure)]

/-- The shared parts of a reading that fits. -/
theorem partsF24_of_fits {q : Request} (cfg : Config) (h : fitsF2 q) :
    ∃ b2 b3, partsF24 cfg q = (bytesF24 q b2 b3).map some ∧ temperatureBytes q (smagWholeSpec cfg.signSource) b2 b3 := by
  obtain ⟨⟨hH, hP⟩, hT⟩ := h
  obtain ⟨hfits, hbytes⟩ := smagWholePart_bytes cfg.signSource q
  obtain ⟨bs, hbs⟩ := Option.isSome_iff_exists.mp (hfits.mpr hT)
  obtain ⟨b2, b3, rfl, htemp⟩ := hbytes bs hbs
  refine ⟨b2, b3, ?_, htemp⟩
  rw [partsF24, hbs, (encode_rowsF24 q f24H (by decide)).trans (if_pos hH),
    (encode_rowsF24 q f24P (by decide)).trans (if_pos hP)]
  rfl

/-- What the first six bytes of an encoded frame hold, whatever comes after them (R270, R271). -/
theorem read_bytesF24 {q : Request} (h : fitsHumidityPressure q) (tag b2 b3 : Byte) (rest : List (List Byte)) {m : Memory}
    (hm : m = Memory.ofBytes ([tag] :: bytesF24 q b2 b3 ++ rest).flatten) :
    m.read 0 = tag ∧ ((m.read 1).toNat : ℤ) = q.rawOr .humidity 0 (fun v => trunc (2 * v)) ∧
      m.read 2 = b2 ∧ m.read 3 = b3 ∧ (memRead m 4 2 : ℤ) = q.rawOr .pressure 0 (fun v => trunc (v - 50000)) := by
  subst hm
  refine ⟨Memory.read_ofBytes _ _, ?_, Memory.read_ofBytes _ _, Memory.read_ofBytes _ _,
    memRead_part_of_within 3 h.2 rfl rfl⟩
  rw [← memRead_one]
  exact memRead_part_of_within 1 h.1 rfl rfl

/-- A reading that fits Format 2 is encoded part by part. -/
theorem frameF2_of_fits {q : Request} (cfg : Config) (h : fitsF2 q) :
    ∃ b2 b3, frameF2 cfg q = some ([0x02#8] :: bytesF24 q b2 b3 ++ []).flatten ∧
      temperatureBytes q (smagWholeSpec cfg.signSource) b2 b3 := by
  obtain ⟨b2, b3, hparts, htemp⟩ := partsF24_of_fits cfg h
  refine ⟨b2, b3, ?_, htemp⟩
  rw [frameF2, hparts]
  exact joinParts_map_some ([0x02#8] :: bytesF24 q b2 b3 ++ [])

/-- A part that does not fit refuses the frame of Format 2. -/
theorem frameF2_of_not_fits {q : Request} (cfg : Config) (h : ¬ fitsF2 q) : frameF2 cfg q = none := by
  refine Option.not_isSome_iff_eq_none.mp fun hframe => h ((fitsF2_iff cfg q).mpr fun o ho => ?_)
  exact (joinParts_isSome _).mp hframe o (List.mem_cons_of_mem _ ho)

/-- A reading that fits Format 4 is encoded part by part, the identifier in the form F4_ID_FORM names (R262). -/
theorem frameF4_of_fits {q : Request} {cfg : Config} (h : fitsF4 cfg q) :
    ∃ b2 b3 b6, frameF4 cfg q = some ([0x04#8] :: bytesF24 q b2 b3 ++ [[b6]]).flatten ∧
      temperatureBytes q (smagWholeSpec cfg.signSource) b2 b3 ∧ (b6.toNat : ℤ) = coarseIdByte cfg.f4IdForm q := by
  obtain ⟨b2, b3, hparts, htemp⟩ := partsF24_of_fits cfg h.1
  obtain ⟨bs, hbs⟩ := Option.isSome_iff_exists.mp ((coarseIdPart_bytes cfg.f4IdForm q).1.mpr h.2)
  obtain ⟨b6, rfl, hb6⟩ := (coarseIdPart_bytes cfg.f4IdForm q).2 bs hbs
  refine ⟨b2, b3, b6, ?_, htemp, hb6⟩
  rw [frameF4, hparts, hbs]
  exact joinParts_map_some ([0x04#8] :: bytesF24 q b2 b3 ++ [[b6]])

/-- A part that does not fit refuses the frame of Format 4. -/
theorem frameF4_of_not_fits {q : Request} {cfg : Config} (h : ¬ fitsF4 cfg q) : frameF4 cfg q = none := by
  refine Option.not_isSome_iff_eq_none.mp fun hframe => h ?_
  have hpart := (joinParts_isSome _).mp hframe
  exact ⟨(fitsF2_iff cfg q).mpr fun o ho => hpart o (by simp [ho]),
    (coarseIdPart_bytes cfg.f4IdForm q).1.mp (hpart _ (by simp))⟩

/-- Settles O38: a reading that fits is written part by part, the temperature as R146 gives it; a part that does not fit
refuses the frame. -/
theorem encodeF2WritesTheFrame : Obligations.EncodeF2WritesTheFrame := by
  refine ⟨decode_encode .encodeF2, fun s q hq => ?_⟩
  obtain ⟨hnil, hdomain, hframe⟩ := exec_encode (tag := 0x02#8) (frame := frameF2 s.cfg) (i := .encodeF2) hq rfl
  refine ⟨hnil, fun hv hfits => hdomain hv (frameF2_of_not_fits _ hfits), fun hv hfits => ?_⟩
  obtain ⟨b2, b3, hbytes, htemp⟩ := frameF2_of_fits s.cfg hfits
  obtain ⟨htag, hhum, hb2, hb3, hpres⟩ := read_bytesF24 hfits.1 0x02#8 b2 b3 [] rfl
  exact ⟨_, hframe _ hv hbytes, bytesResponse_isFrame _ rfl (by decide), htag, hhum, hb2.symm ▸ hb3.symm ▸ htemp, hpres⟩

/-- Settles O39: the frame of Format 2 with tag 4, and byte 6 holds the identifier. -/
theorem encodeF4WritesTheFrame : Obligations.EncodeF4WritesTheFrame := by
  refine ⟨decode_encode .encodeF4, fun s q hq => ?_⟩
  obtain ⟨hnil, hdomain, hframe⟩ := exec_encode (tag := 0x04#8) (frame := frameF4 s.cfg) (i := .encodeF4) hq rfl
  refine ⟨hnil, fun hv hfits => hdomain hv (frameF4_of_not_fits hfits), fun hv hfits => ?_⟩
  obtain ⟨b2, b3, b6, hbytes, htemp, hid⟩ := frameF4_of_fits hfits
  obtain ⟨htag, hhum, hb2, hb3, hpres⟩ := read_bytesF24 hfits.1.1 0x04#8 b2 b3 [[b6]] rfl
  exact ⟨_, hframe _ hv hbytes, bytesResponse_isFrame _ rfl (by decide), htag, hhum, hb2.symm ▸ hb3.symm ▸ htemp, hpres,
    (congrArg (fun b : Byte => (b.toNat : ℤ)) (Memory.read_ofBytes _ 6)).trans hid⟩

end Sys2Proof.Machine
end

section
/-! PROOFS. The Unified Decoder of 45_unified.md: R290's dispatch by byte 0, and its completion on frames of R115's lengths. -/

namespace Sys2Proof.Machine

/-- The tags DECODE.ANY knows and the codec each one names (R290). -/
def tagCodecs : List (Byte × Instr) :=
  [(0x02#8, .decodeF2), (0x03#8, .decodeF3), (0x04#8, .decodeF4), (0x05#8, .decodeF5)]

theorem decodeAnyResponse_empty {cfg : Config} {q : Request} (hlen : q.inLen = 0) :
    decodeAnyResponse cfg q = errorResponse .emptyInput :=
  if_pos hlen

theorem decodeAnyResponse_known {cfg : Config} {q : Request} {codec : Instr} (hlen : q.inLen ≠ 0)
    (hcodec : (q.byte 0, codec) ∈ tagCodecs) : decodeAnyResponse cfg q = respond cfg codec q := by
  rw [decodeAnyResponse, if_neg hlen]
  simp only [tagCodecs, List.mem_cons, Prod.mk.injEq, List.not_mem_nil, or_false] at hcodec
  obtain ⟨htag, rfl⟩ | ⟨htag, rfl⟩ | ⟨htag, rfl⟩ | ⟨htag, rfl⟩ := hcodec <;> rw [htag] <;> rfl

theorem decodeAnyResponse_unknown {cfg : Config} {q : Request} (hlen : q.inLen ≠ 0)
    (htag : q.byte 0 ∉ [0x02#8, 0x03#8, 0x04#8, 0x05#8]) : decodeAnyResponse cfg q = errorResponse .unknownFormat := by
  simp only [List.mem_cons, List.not_mem_nil, or_false, not_or] at htag
  obtain ⟨h2, h3, h4, h5⟩ := htag
  exact (if_neg hlen).trans <| (if_neg h2).trans <| (if_neg h3).trans <| (if_neg h4).trans <| if_neg h5

/-- R290's dispatch as a statement about completions: DECODE.ANY is the codec that byte 0 names. -/
theorem exec_decodeAny_known {s : State} {q : Request} {tag : Byte} {codec : Instr} (hq : s.snapshot = some q)
    (hcodec : (tag, codec) ∈ tagCodecs) (hlen : q.inLen ≠ 0) (htag : q.byte 0 = tag) :
    exec .decodeAny s = exec codec s := by
  subst htag
  calc exec .decodeAny s
    _ = .next (s.complete (decodeAnyResponse s.cfg q)) := exec_some .decodeAny hq
    _ = .next (s.complete (respond s.cfg codec q)) := by rw [decodeAnyResponse_known hlen hcodec]
    _ = exec codec s := (exec_some codec hq).symm

/-- Settles O34: DECODE.ANY is the codec of a known tag, and otherwise ends with one of the detector's two errors. -/
theorem decodeAnyDispatchesByTag : Obligations.DecodeAnyDispatchesByTag := by
  refine ⟨decode_encode .decodeAny, fun s q hq => ?_⟩
  have hexec : exec .decodeAny s = .next (s.complete (decodeAnyResponse s.cfg q)) := exec_some .decodeAny hq
  refine ⟨fun hlen => ?_, exec_decodeAny_known hq (by decide), exec_decodeAny_known hq (by decide),
    exec_decodeAny_known hq (by decide), exec_decodeAny_known hq (by decide), fun hlen htag => ?_⟩
  · rw [hexec, decodeAnyResponse_empty hlen]
    rfl
  · rw [hexec, decodeAnyResponse_unknown hlen htag]
    rfl

/-- Each tag's codec decodes frames of the length R115 gives the tag, which is not zero. -/
theorem exists_codec_of_frame {tag : Byte} {len : Nat}
    (h : (tag, len) ∈ [(0x02#8, 6), (0x03#8, 14), (0x04#8, 7), (0x05#8, 24)]) (cfg : Config) :
    0 < len ∧ ∃ codec slots, (tag, codec) ∈ tagCodecs ∧ respond cfg codec = decodeResponse tag len slots := by
  simp only [List.mem_cons, Prod.mk.injEq, List.not_mem_nil, or_false] at h
  obtain ⟨rfl, rfl⟩ | ⟨rfl, rfl⟩ | ⟨rfl, rfl⟩ | ⟨rfl, rfl⟩ := h
  · exact ⟨by decide, .decodeF2, slotsF24 cfg, by decide, rfl⟩
  · exact ⟨by decide, .decodeF3, slotsF3, by decide, rfl⟩
  · exact ⟨by decide, .decodeF4, slotsF4 cfg, by decide, rfl⟩
  · exact ⟨by decide, .decodeF5, slotsF5, by decide, rfl⟩

/-- Settles O35: DECODE.ANY is the tag's codec, whose length and tag checks the frame passes. -/
theorem decodeAnyCompletesOnFrames : Obligations.DecodeAnyCompletesOnFrames := by
  intro s q tag len hq hframe htag hlen
  obtain ⟨hpos, codec, slots, hcodec, hrespond⟩ := exists_codec_of_frame hframe s.cfg
  have hne : q.inLen ≠ 0 := by
    intro hzero
    rw [hzero] at hlen
    exact hpos.ne hlen
  have hdispatch : exec .decodeAny s = exec codec s := exec_decodeAny_known hq hcodec hne htag
  obtain ⟨-, -, hreading⟩ := exec_decode hq (congrFun hrespond q)
  exact ⟨_, hdispatch.trans (hreading hlen htag), readingResponse_isReading tag _⟩

end Sys2Proof.Machine
end

section
/-! PROOFS. The statements of 60_exceptions.md: which steps stop, which code and which registers a completion leaves, and the
members of a bank. -/

namespace Sys2Proof.Machine

/-! ### When a step stops (R300, R301) -/

/-- A state with a reserved status code is a fault state (R301). -/
theorem step_reserved {s : State} (hc : codeReserved s.resp.code = true) : step s = .fault .reservedStatusCode :=
  if_pos hc

/-- Settles O11. -/
theorem reservedStatusCodeFaults : Obligations.ReservedStatusCodeFaults :=
  fun _ hc => step_reserved (decide_eq_true hc)

/-- The host accesses: a write, a read, and the write of the value last read (R30, R105). -/
def BusAct.IsAccess (a : BusAct) : Prop := ∃ addr v, a = .write addr v ∨ a = .read addr ∨ a = .writeBack addr

/-- A host write is done or refused. -/
theorem busWrite_next_or_refused (addr : Nat) (v : Value) (s : State) :
    (∃ t, busWrite addr v s = .next t) ∨ ∃ r, busWrite addr v s = .refused r := by
  unfold busWrite windowWrite
  split
  · exact .inr ⟨_, rfl⟩
  · cases hw : writeEntry (entryAt s.cfg (addr - s.cfg.windowBase)) v s with
    | next t => exact .inl ⟨t, rfl⟩
    | fault f => exact absurd hw (writeEntry_no_fault _ v s f)
    | refused r => exact .inr ⟨r, rfl⟩

/-- A host read is done or refused. -/
theorem busRead_next_or_refused (addr : Nat) (s : State) :
    (∃ t, busRead addr s = .next t) ∨ ∃ r, busRead addr s = .refused r := by
  unfold busRead
  split
  · exact .inr ⟨_, rfl⟩
  · exact .inl ⟨_, rfl⟩

/-- An act of the outside world is done, or it is a host access that is refused. -/
theorem hostMove_next_or_refused (a : BusAct) (s : State) :
    (∃ t, hostMove a s = .next t) ∨ a.IsAccess ∧ ∃ r, hostMove a s = .refused r := by
  cases a with
  | write addr v => exact (busWrite_next_or_refused addr v s).imp_right fun h => ⟨⟨addr, v, .inl rfl⟩, h⟩
  | read addr => exact (busRead_next_or_refused addr s).imp_right fun h => ⟨⟨addr, 0, .inr (.inl rfl)⟩, h⟩
  | writeBack addr =>
    exact (busWrite_next_or_refused addr s.hostData s).imp_right fun h => ⟨⟨addr, 0, .inr (.inr rfl)⟩, h⟩
  | codec => exact .inl (codecMove_next s)
  | waitDone =>
    simp only [hostMove]
    split
    · exact .inl ⟨_, rfl⟩
    · exact .inl (codecMove_next _)
  | move => exact .inl ⟨_, rfl⟩
  | stopUnlessOk n =>
    simp only [hostMove]
    split <;> exact .inl ⟨_, rfl⟩
  | reset => exact .inl ⟨_, rfl⟩

/-- A step without a reserved status code is done, or refused at the host access that is the next act. -/
theorem step_next_or_refused {s : State} (hc : codeReserved s.resp.code = false) :
    (∃ t, step s = .next t) ∨ (∃ a rest, s.agenda = a :: rest ∧ a.IsAccess) ∧ ∃ r, step s = .refused r := by
  cases ha : s.agenda with
  | nil => exact .inl (step_idle hc ha ▸ codecMove_next s)
  | cons a rest =>
    rw [step_act hc ha]
    exact (hostMove_next_or_refused a _).imp_right fun ⟨haccess, h⟩ => ⟨⟨a, rest, rfl, haccess⟩, h⟩

/-- Settles O9: the invariant excludes a reserved status code, the one cause of a fault. -/
theorem stopsComeFromHostAccessesOnly : Obligations.StopsComeFromHostAccessesOnly := by
  intro s hs
  obtain ⟨t, ht⟩ | ⟨⟨a, rest, ha, addr, v, haccess⟩, r, hr⟩ := step_next_or_refused (State.inv_code hs)
  · simp [ht]
  · refine ⟨by simp [hr], fun _ _ => ⟨addr, v, rest, ?_⟩⟩
    obtain rfl | rfl | rfl := haccess
    · exact .inl ha
    · exact .inr (.inl ha)
    · exact .inr (.inr ha)

/-! ### The response is a function of the snapshot (R304) -/

/-- The response to a snapshot, an illegal command's among them (R48, R103). -/
def codecResponse (cfg : Config) (q : Request) : Response :=
  match decode q.cmd with
  | .ok i => respond cfg i q
  | .error _ => errorResponse .illegalCommand

/-- The codec unit completes a pending transaction with the response to its snapshot. -/
theorem codecMove_pending {s : State} {q : Request} (hq : s.snapshot = some q) :
    codecMove s = .next (s.complete (codecResponse s.cfg q)) := by
  unfold codecResponse
  cases hcmd : decode q.cmd with
  | ok i => exact (codecMove_legal hq hcmd).trans (exec_some i hq)
  | error r => exact codecMove_illegal hq hcmd

/-- Settles O23: both responses are `codecResponse` of the same parameters and snapshot. -/
theorem sameSnapshotSameResponse : Obligations.SameSnapshotSameResponse := by
  intro s t s' t' q hcfg hq hq' h h'
  obtain rfl := Host.Outcome.next.inj ((codecMove_pending hq).symm.trans h)
  obtain rfl := Host.Outcome.next.inj ((codecMove_pending hq').symm.trans h')
  rw [State.complete_resp, State.complete_resp, hcfg]

/-! ### What the form of a response says of its registers (R45, R73, R306) -/

section
variable {r : Response} (h : r.inv = true)
include h

/-- After an error every register but CODE is 0. -/
theorem Response.inv_error (hcode : r.code ≠ 0) : ∃ c, r = { Response.zero with code := c } := by
  simp only [Response.inv, Bool.and_eq_true, Bool.or_eq_true, decide_eq_true_eq] at h
  exact ⟨r.code, h.2.resolve_left hcode⟩

/-- An absent slot's register is 0. -/
theorem Response.inv_absent {k : Slot} (hk : r.rdPresent.getLsbD k.num = false) : r.rdValue.get k = 0 := by
  simp only [Response.inv, Bool.and_eq_true] at h
  obtain ⟨⟨⟨-, habsent⟩, -⟩, -⟩ := h
  simpa [hk] using List.all_eq_true.mp habsent k (Slot.mem_all k)

/-- Every byte of OUT_BUF from OUT_LEN on is 0. -/
theorem Response.inv_outBuf {n : Nat} (hn : r.outLen.toNat ≤ n) : r.outBuf.read n = 0 := by
  simp only [Response.inv, Bool.and_eq_true] at h
  obtain ⟨⟨⟨⟨-, hbelow⟩, -⟩, -⟩, -⟩ := h
  exact Memory.read_of_below hbelow hn

end

/-- Settles O24: every completion's response is of the form that holds nothing but CODE after an error. -/
theorem errorsLeaveNothingElse : Obligations.ErrorsLeaveNothingElse := by
  intro s t q hq h hcode
  obtain ⟨r, hshape, hnext⟩ := codecMove_some hq
  obtain rfl := Host.Outcome.next.inj (hnext.symm.trans h)
  obtain ⟨c, rfl⟩ := Response.inv_error hshape.inv hcode
  exact ⟨rfl, rfl, rfl, SlotRegs.get_zero, rfl, Memory.read_nil⟩

/-! ### How each command can end (R301, R307, R310) -/

/-- The DECODE commands (R101). -/
def decodeCommands : List Instr := [.decodeAny, .decodeF2, .decodeF3, .decodeF4, .decodeF5]

/-- The ENCODE commands (R101). -/
def encodeCommands : List Instr := [.encodeF2, .encodeF3, .encodeF4, .encodeF5]

/-- The envelope commands (R101). -/
def envelopeCommands : List Instr := [.envWrap, .envStrip]

/-- The errors a command can raise (R291, R301, R310). -/
def errorsOf : Instr → List StatusCode
  | .detect => [.emptyInput, .unknownFormat]
  | .decodeAny => [.emptyInput, .unknownFormat, .invalidLength]
  | .decodeF2 | .decodeF3 | .decodeF4 | .decodeF5 => [.wrongFormatTag, .invalidLength]
  | .encodeF2 | .encodeF3 | .encodeF4 | .encodeF5 => [.nilInput, .encodeDomain]
  | .envWrap | .envStrip => [.invalidLength]

/-- The responses the rule of command `i` allows: one of its errors, or a success that writes what `i` writes. -/
inductive Ending (i : Instr) : Response → Prop where
  | error {c : StatusCode} (h : c ∈ errorsOf i) : Ending i (errorResponse c)
  | tag (h : i = .detect) (t : Byte) : Ending i (tagResponse t)
  | reading (h : i ∈ decodeCommands) (t : Byte) (slots : Slot → Option Int) : Ending i (readingResponse t slots)
  | frame (h : i ∈ encodeCommands) (t : Byte) (bs : List Byte) : Ending i (bytesResponse t bs)
  | payload (h : i ∈ envelopeCommands) (bs : List Byte) : Ending i (bytesResponse 0 bs)

/-- A decode of one format ends so in every command that can raise what it raises: WrongFormatTag on a foreign tag only. -/
theorem decodeResponse_ending {i : Instr} {tag : Byte} {len : Nat} {slots : Memory → Slot → Option Int} {q : Request}
    (hi : i ∈ decodeCommands) (hlen : .invalidLength ∈ errorsOf i)
    (htag : q.byte 0 ≠ tag → .wrongFormatTag ∈ errorsOf i) : Ending i (decodeResponse tag len slots q) := by
  unfold decodeResponse
  split_ifs with _ hne
  · exact .error hlen
  · exact .error (htag hne)
  · exact .reading hi _ _

theorem encodeResponse_ending {i : Instr} (hi : i ∈ encodeCommands) (herr : errorsOf i = [.nilInput, .encodeDomain])
    (tag : Byte) (frame : Request → Option (List Byte)) (q : Request) : Ending i (encodeResponse tag frame q) := by
  unfold encodeResponse
  split
  · split
    · exact .error (by simp [herr])
    · exact .frame hi _ _
  · exact .error (by simp [herr])

theorem detectResponse_ending (q : Request) : Ending .detect (detectResponse q) := by
  unfold detectResponse
  split_ifs
  · exact .error (by decide)
  · exact .tag rfl _
  · exact .error (by decide)

/-- DECODE.ANY hands a frame to the codec of its own tag, which therefore finds no foreign one (R291). -/
theorem decodeAnyResponse_ending (cfg : Config) (q : Request) : Ending .decodeAny (decodeAnyResponse cfg q) := by
  have codec : ∀ {tag len slots}, q.byte 0 = tag → Ending .decodeAny (decodeResponse tag len slots q) :=
    fun htag => decodeResponse_ending (by decide) (by decide) (absurd htag)
  unfold decodeAnyResponse
  split_ifs with _ h2 h3 h4 h5
  · exact .error (by decide)
  · exact codec h2
  · exact codec h3
  · exact codec h4
  · exact codec h5
  · exact .error (by decide)

theorem envWrapResponse_ending (cfg : Config) (q : Request) : Ending .envWrap (envWrapResponse cfg q) := by
  unfold envWrapResponse
  split_ifs
  · exact .error (by decide)
  · exact .payload (by decide) _

theorem envStripResponse_ending (q : Request) : Ending .envStrip (envStripResponse q) := by
  unfold envStripResponse
  split_ifs
  · exact .error (by decide)
  · exact .payload (by decide) _

/-- Every command ends as its rule allows. -/
theorem respond_ending (cfg : Config) (i : Instr) (q : Request) : Ending i (respond cfg i q) := by
  cases i with
  | detect => exact detectResponse_ending q
  | decodeAny => exact decodeAnyResponse_ending cfg q
  | decodeF2 | decodeF3 | decodeF4 | decodeF5 =>
    exact decodeResponse_ending (by decide) (by decide) fun _ => by decide
  | encodeF2 | encodeF3 | encodeF4 | encodeF5 => exact encodeResponse_ending (by decide) rfl _ _ q
  | envWrap => exact envWrapResponse_ending cfg q
  | envStrip => exact envStripResponse_ending q

section
variable {i : Instr} {r : Response} (h : Ending i r)
include h

/-- CODE is OK or the number of one of the command's errors. -/
theorem Ending.code : r.code ∈ (StatusCode.ok :: errorsOf i).map StatusCode.bits := by
  cases h with
  | error hc => exact List.mem_map_of_mem (List.mem_cons_of_mem _ hc)
  | tag | reading | frame | payload => exact List.mem_cons_self

/-- Only a DECODE leaves a reading (R43). -/
theorem Ending.no_reading (hi : i ∉ decodeCommands) :
    r.rdValid = false ∧ r.rdPresent = 0 ∧ ∀ k, r.rdValue.get k = 0 := by
  cases h with
  | reading hdec => exact absurd hdec hi
  | error | tag | frame | payload => exact ⟨rfl, rfl, SlotRegs.get_zero⟩

/-- Only an ENCODE or an envelope command leaves output bytes (R73). -/
theorem Ending.no_output (hi : i ∉ encodeCommands ++ envelopeCommands) : r.outLen = 0 := by
  cases h with
  | frame henc => exact absurd (List.mem_append_left _ henc) hi
  | payload henv => exact absurd (List.mem_append_right _ henv) hi
  | error | tag | reading => rfl

/-- An envelope command leaves no format tag (R210, R213). -/
theorem Ending.no_format (hi : i ∈ envelopeCommands) : r.fmt = 0 := by
  have hother : ∀ i ∈ envelopeCommands, i ≠ .detect ∧ i ∉ decodeCommands ∧ i ∉ encodeCommands := by decide
  obtain ⟨hdetect, hdecode, hencode⟩ := hother i hi
  cases h with
  | tag hd => exact absurd hd hdetect
  | reading hd => exact absurd hd hdecode
  | frame he => exact absurd he hencode
  | error | payload => rfl

end

/-- Settles O26: the listed codes are OK and the command's errors. -/
theorem codesEachCommandRaises : Obligations.CodesEachCommandRaises := by
  intro i s t h
  obtain ⟨q, -, rfl⟩ := exec_next h
  have hcode := (respond_ending s.cfg i q).code
  cases i <;> exact hcode

/-- Settles O27: the defaults of each command by how it can end, the absent slots and the bytes after the output by the form
of every response. -/
theorem unwrittenResponsesTakeDefaults : Obligations.UnwrittenResponsesTakeDefaults := by
  intro i s t h _
  obtain ⟨q, -, rfl⟩ := exec_next h
  have hending := respond_ending s.cfg i q
  have hform := (respond_shape s.cfg i q).inv
  exact ⟨hending.no_reading, hending.no_output, hending.no_format, fun _ => Response.inv_absent hform,
    fun _ => Response.inv_outBuf hform⟩

/-! ### Several members of a bank (R330) -/

/-- A number that names no member changes nothing (log 13). -/
theorem Bank.step_none {k : Nat} {b : Bank} (hk : b[k]? = none) : Bank.step k b = .next b := by
  simp [Bank.step, hk]

theorem Bank.step_some {k : Nat} {b : Bank} {s t : State} (hk : b[k]? = some s) (hs : Machine.step s = .next t) :
    Bank.step k b = .next (b.set k t) := by
  simp [Bank.step, hk, hs]

/-- The inversion lemma of Bank.step: no such member, or that member's own step. -/
theorem Bank.step_next {k : Nat} {b after : Bank} (h : Bank.step k b = .next after) :
    (b[k]? = none ∧ after = b) ∨ ∃ s t, b[k]? = some s ∧ Machine.step s = .next t ∧ after = b.set k t := by
  cases hk : b[k]? with
  | none =>
    rw [Bank.step_none hk] at h
    exact .inl ⟨rfl, (Host.Outcome.next.inj h).symm⟩
  | some s =>
    cases hs : Machine.step s with
    | next t =>
      rw [Bank.step_some hk hs] at h
      exact .inr ⟨s, t, rfl, hs, (Host.Outcome.next.inj h).symm⟩
    | fault _ => simp [Bank.step, hk, hs] at h
    | refused _ => simp [Bank.step, hk, hs] at h

/-- Settles O52: the step of a bank sets member `k` to what its own step answers. -/
theorem instancesAreIndependent : Obligations.InstancesAreIndependent := by
  intro k before other after h
  obtain ⟨hk, rfl⟩ | ⟨s, t, hk, hs, rfl⟩ := Bank.step_next h
  · exact ⟨rfl, fun _ _ => rfl, fun hother => ⟨other, Bank.step_none (hother.trans hk), hother⟩⟩
  · refine ⟨List.length_set, fun j hj => List.getElem?_set_ne hj.symm, fun hother => ?_⟩
    refine ⟨other.set k t, Bank.step_some (hother.trans hk) hs, ?_⟩
    rw [List.getElem?_set_self', List.getElem?_set_self', hother]

end Sys2Proof.Machine
end

section
/-! PROOFS. The statements of 70_reset_and_hazards.md: the reset input, the refused writes of IN_LEN, the acts that keep the
host's duties, and the end of a pending transaction. -/

namespace Sys2Proof.Machine

/-! ### The reset input (R340) -/

/-- Every entry reads after a reset of the block as it reads in the reset state (R340, R341). -/
theorem readEntry_resetBlock (e : Entry) (s : State) : readEntry e s.resetBlock = readEntry e State.reset := by
  cases e <;> rfl

/-- Settles O2: the reset input takes the block to `State.resetBlock`, whose entries read as they do after reset. -/
theorem resetActClearsTheBlock : Obligations.ResetActClearsTheBlock := by
  intro s rest hc ha
  have hzero : ∀ off, windowRead off (State.resetBlock { s with agenda := rest }) = 0 := fun _ =>
    (readEntry_resetBlock _ _).trans (readEntry_reset _)
  exact ⟨State.resetBlock { s with agenda := rest }, step_act hc ha, rfl, rfl, rfl, hzero, fun _ => rfl, fun _ => rfl⟩

/-! ### The host's duties (R81, R352) -/

/-- A write of IN_LEN greater than IN_CAP is refused (R352). -/
theorem windowWrite_inLen_refused {s : State} {v : Value} (hv : s.cfg.inCap < (v.setWidth 8).toNat) :
    windowWrite 0x03 v s = .refused .inLenBeyondCapacity :=
  if_pos hv

/-- Settles O17. -/
theorem inLenBeyondCapacityIsRefused : Obligations.InLenBeyondCapacityIsRefused := by
  intro s v rest hc ha hv
  calc step s
    _ = busWrite (s.cfg.windowBase + 0x03) v { s with agenda := rest } := step_act hc ha
    _ = windowWrite 0x03 v { s with agenda := rest } := busWrite_window { s with agenda := rest } 0x03 v
    _ = .refused .inLenBeyondCapacity := windowWrite_inLen_refused hv

/-- Only IN_LEN can refuse a write, so every write is done that respects its capacity (R352). -/
theorem writeEntry_done {e : Entry} {v : Value} {s : State} (h : e = .inLen → (v.setWidth 8).toNat ≤ s.cfg.inCap) :
    ∃ t, writeEntry e v s = .next t := by
  cases e with
  | inLen => exact ⟨_, if_neg (Nat.not_lt.mpr (h rfl))⟩
  | _ => exact ⟨_, rfl⟩

/-- A dutiful write stays in the window (R81). -/
theorem writeWf_window {cfg : Config} {addr : Nat} {v : Value} (h : writeWf cfg addr v = true) : cfg.windowBase ≤ addr :=
  of_decide_eq_true (Bool.and_eq_true_iff.mp h).1

/-- A dutiful write of IN_LEN respects its capacity (R352). -/
theorem writeWf_inLen {cfg : Config} {off : Nat} {v : Value} (h : writeWf cfg (cfg.windowBase + off) v = true)
    (he : entryAt cfg off = .inLen) : v.toNat ≤ cfg.inCap := by
  simpa [writeWf, he] using h

/-- A dutiful write is done: the byte that reaches IN_LEN is never greater than the value written. -/
theorem busWrite_dutiful {s : State} {addr : Nat} {v : Value} (h : writeWf s.cfg addr v = true) :
    ∃ t, busWrite addr v s = .next t := by
  obtain ⟨off, rfl⟩ := Nat.exists_eq_add_of_le (writeWf_window h)
  rw [busWrite_window]
  refine writeEntry_done fun he => ?_
  have hbyte : (v.setWidth 8).toNat ≤ v.toNat := by
    rw [BitVec.toNat_setWidth]
    exact Nat.mod_le _ _
  exact hbyte.trans (writeWf_inLen h he)

/-- A dutiful read is done (R81). -/
theorem busRead_dutiful {s : State} {addr : Nat} (h : s.cfg.windowBase ≤ addr) : ∃ t, busRead addr s = .next t :=
  ⟨_, if_neg (Nat.not_lt.mpr h)⟩

/-- Settles O10: only an access can be refused, and a dutiful write or read is done. -/
theorem dutifulActsNeverStop : Obligations.DutifulActsNeverStop := by
  intro s a rest hs ha hwf hnot
  rw [step_act (State.inv_code hs) ha]
  obtain hdone | ⟨⟨addr, v, rfl | rfl | rfl⟩, -⟩ := hostMove_next_or_refused a { s with agenda := rest }
  · exact hdone
  · exact busWrite_dutiful (s := { s with agenda := rest }) hwf
  · exact busRead_dutiful (s := { s with agenda := rest }) (of_decide_eq_true hwf)
  · exact absurd rfl (hnot addr)

/-! ### The end of a pending transaction (R360, R361) -/

/-- While BUSY = 1 a transaction is pending and DONE = 0 (R36, R53). -/
theorem State.inv_busy {s : State} (hs : s.inv = true) (hb : s.busy = true) :
    (∃ q, s.snapshot = some q) ∧ s.done = false := by
  obtain ⟨-, -, -, -, hsnap, hexcl⟩ := (State.inv_iff s).mp hs
  exact ⟨Option.isSome_iff_exists.mp (hsnap.symm.trans hb), Bool.eq_false_iff.mpr fun hd => hexcl ⟨hb, hd⟩⟩

/-- Settles O21: the codec unit's move is a completion, and the poll after it finds DONE = 1. -/
theorem pendingTransactionsEnd : Obligations.PendingTransactionsEnd := by
  intro s hs hb
  have hc := State.inv_code hs
  obtain ⟨⟨q, hq⟩, hd⟩ := State.inv_busy hs hb
  obtain ⟨r, hr, hmove⟩ := codecMove_some hq
  refine ⟨fun ha => ⟨s.complete r, (step_idle hc ha).trans hmove, rfl, rfl⟩, fun rest ha => ?_⟩
  have hcompletes : step s = .next (s.complete r) := (step_waitDone_pending hc ha hd).trans hmove
  have hends := step_waitDone_done (s := s.complete r) hr.code ha rfl
  exact ⟨_, (run_succ 1 hcompletes).trans (run_one hends), rfl, rfl, rfl⟩

end Sys2Proof.Machine
end
